-- ==== Sys2Proof/Word.lean ====
section
/-! DEFINITION. The words that cross an interface of the block, at the widths spec/00_scope.md R4 and
spec/30_encoding.md R40, R41, R42 give them. Everything inside an operation is a natural number (R5). -/

namespace Sys2Proof

/-- A sample or a decoded value: VALUE_W = 32 bits, unsigned (R4). -/
abbrev Sample := BitVec 32

/-- A codeword: CODE_W = 8 bits, unsigned (R4, R44). -/
abbrev Code := BitVec 8

/-- An exponent width K or a mantissa width M as a request carries it: 0..255 (R13). -/
abbrev Param := BitVec 8

/-- The `maxValue` argument at the width that holds its range 0..2^32 (R41, R98). -/
abbrev Count := BitVec 33

/-- The request word `REQ[49:0]` (R40). -/
abbrev ReqWord := BitVec 50

/-- The response word `RSP[34:0]` (R42). -/
abbrev RspWord := BitVec 35

/-- One LUT entry as a word, `{present, value}` (R26). -/
abbrev EntryWord := BitVec 33

/-- BUILDLUT's argument tuple `{K, M, maxValue}` as spec/opcode_table.json lays it out (R41). -/
abbrev ArgWord := BitVec 49

/-- Text of the command-line tool, one character after another (R50 to R52). -/
abbrev Text := List Char

end Sys2Proof
end

