-- ==== Sys2Proof/Config.lean ====
section
/-! DEFINITION. The fixed parameters of the block (spec/00_scope.md R4), the parameters the spec leaves OPEN
(spec/10_state.md R15, spec/92_eei_decisions.md D15) and the free values (spec/30_encoding.md R42,
spec/20_memory.md R26). An opaque constant has no body: nothing can be proved of its value. -/

namespace Sys2Proof.Config

/-- SENTINEL: the codeword every failed encode shows (R4, R48, R61, R64). -/
def sentinel : Code := 0xFF

/-- LUT_ENTRIES: one entry per 8-bit codeword (R4, R25). -/
def lutEntries : Nat := 256

/-- The largest `maxValue` the tool accepts, 2^32 (R98, R103). -/
def maxSweep : Nat := 2 ^ 32

/-- LUT_K of the instance that comes out of reset (R15). DESIGN CHOICE: log entry 3. -/
opaque lutK : Param

/-- LUT_M of the instance that comes out of reset (R15). DESIGN CHOICE: log entry 3. -/
opaque lutM : Param

/-- LUT_MAXVALUE of the instance that comes out of reset, 0..2^32 (R15). DESIGN CHOICE: log entry 3. -/
opaque lutMaxValue : Fin 4294967297

/-- The data of the n-th response whose data the spec leaves unspecified (R42, U6). Log entry 5. -/
opaque freeData : Nat → Sample

/-- The `value` bits of an absent entry: of the table built for the given K, M and maxValue, at the given
codeword (R26, U7). Log entry 6. -/
opaque absentValue : Param → Param → Nat → Code → Sample

end Sys2Proof.Config
end

