-- ==== Sys2Proof/Syntax.lean ====
section
/-! DEFINITION. The four operations of the block (spec/00_scope.md R1, spec/opcode_table.json), one constructor per
row, and the two kinds of word an operation is written in (spec/30_encoding.md R40, R41). -/

namespace Sys2Proof

/-- An operation with its operands (R46): every operand is an unsigned field. -/
inductive Instr where
  /-- ENC: sample to codeword (R60). -/
  | enc (K M : Param) (value : Sample)
  /-- DEC: codeword to value (R75). -/
  | dec (K M : Param) (codeword : Code)
  /-- LUTRD: table read (R101). -/
  | lutrd (K M : Param) (codeword : Code)
  /-- BUILDLUT: the table builder; not a request of the request port (R41, R90). -/
  | buildlut (K M : Param) (maxValue : Count)
  deriving DecidableEq, Repr

/-- The word an operation is written in: a request of the request port, or the argument tuple of the build tool,
which no request can carry (R41). -/
inductive InstrWord where
  | req (w : ReqWord)
  | argv (w : ArgWord)
  deriving DecidableEq, Repr

end Sys2Proof
end

