-- ==== Sys2Proof/WellFormed.lean ====
section
/-! DEFINITION. When an operation is one the interface admits. The field widths say all there is to say of a
request's operands (spec/30_encoding.md R46: K and M are 0..255, also where they are not legal for the codec); the one
bound a width does not say is `maxValue ≤ 2^32` (spec/42_lut.md R98, R103). -/

namespace Sys2Proof

/-- The operands lie in the ranges the interface admits. -/
def Instr.wellFormed : Instr → Bool
  | .enc _ _ _ => true
  | .dec _ _ _ => true
  | .lutrd _ _ _ => true
  | .buildlut _ _ maxValue => decide (maxValue.toNat ≤ Config.maxSweep)

end Sys2Proof
end

