-- ==== Sys2Proof/Decode.lean ====
section
/-! DEFINITION. The decode layer, total on every word: requests (spec/30_encoding.md R40, R41, R46, R47), the
argument tuple of the build tool (R41) and its command line (R51, spec/42_lut.md R103). After the decoder stand the
encoder and the written forms of numbers and pairs (R50, R52). -/

namespace Sys2Proof

/-- Why a word or a command line selects no operation. -/
inductive Reject where
  /-- `op = 3` selects nothing (R41, R47). -/
  | reservedOp
  /-- `data[31:8]` of a DEC or LUTRD request is not zero (R47). -/
  | reservedBits
  /-- `maxValue` is above 2^32 (R103). -/
  | maxValueRange
  deriving DecidableEq, Repr

/-- What a word decodes to. -/
inductive Decoded where
  | instr (i : Instr)
  | rejected (why : Reject)
  deriving DecidableEq, Repr

/-! ## The fields of a request word (R40) -/

/-- `REQ.op = REQ[49:48]`. -/
def ReqWord.op (w : ReqWord) : BitVec 2 := w.extractLsb' 48 2

/-- `REQ.K = REQ[47:40]`. -/
def ReqWord.k (w : ReqWord) : Param := w.extractLsb' 40 8

/-- `REQ.M = REQ[39:32]`. -/
def ReqWord.m (w : ReqWord) : Param := w.extractLsb' 32 8

/-- `REQ.data = REQ[31:0]`. -/
def ReqWord.data (w : ReqWord) : Sample := w.extractLsb' 0 32

/-- `REQ.data[7:0]`, the codeword operand of DEC and LUTRD (R46). -/
def ReqWord.codeword (w : ReqWord) : Code := w.extractLsb' 0 8

/-- `REQ.data[31:8]`, the reserved bits of DEC and LUTRD (R46, R47). -/
def ReqWord.reserved (w : ReqWord) : BitVec 24 := w.extractLsb' 8 24

/-- A request word is one of the three legal forms or illegal (R41, R47). -/
def decodeRequest (w : ReqWord) : Decoded :=
  match (ReqWord.op w).toNat with
  | 0 => .instr (.enc (ReqWord.k w) (ReqWord.m w) (ReqWord.data w))
  | 1 => if ReqWord.reserved w = 0 then .instr (.dec (ReqWord.k w) (ReqWord.m w) (ReqWord.codeword w))
         else .rejected .reservedBits
  | 2 => if ReqWord.reserved w = 0 then .instr (.lutrd (ReqWord.k w) (ReqWord.m w) (ReqWord.codeword w))
         else .rejected .reservedBits
  | _ => .rejected .reservedOp

/-! ## The argument tuple of the build tool (R41, spec/opcode_table.json row BUILDLUT) -/

/-- Argument 1, bits 48:41. -/
def ArgWord.k (w : ArgWord) : Param := w.extractLsb' 41 8

/-- Argument 2, bits 40:33. -/
def ArgWord.m (w : ArgWord) : Param := w.extractLsb' 33 8

/-- Argument 3, bits 32:0. -/
def ArgWord.maxValue (w : ArgWord) : Count := w.extractLsb' 0 33

/-- The tuple is the tool's call if its `maxValue` is one the tool accepts (R98, R103). -/
def decodeArgs (w : ArgWord) : Decoded :=
  if (ArgWord.maxValue w).toNat ≤ Config.maxSweep then
    .instr (.buildlut (ArgWord.k w) (ArgWord.m w) (ArgWord.maxValue w))
  else .rejected .maxValueRange

/-- The decoder: every word is an operation or is rejected by name. -/
def decode : InstrWord → Decoded
  | .req w => decodeRequest w
  | .argv w => decodeArgs w

/-! ## The encoder, from the same field tables -/

/-- `{op, K, M, data}`, the op field highest (R40). -/
def requestWord (op : BitVec 2) (K M : Param) (data : Sample) : ReqWord := op ++ K ++ M ++ data

/-- `{24'b0, codeword}` (R46, R53). -/
def codeOperand (c : Code) : Sample := (0 : BitVec 24) ++ c

/-- The word an operation is written in (R53; the tuple of R41 for BUILDLUT). -/
def encode : Instr → InstrWord
  | .enc K M value => .req (requestWord 0 K M value)
  | .dec K M codeword => .req (requestWord 1 K M (codeOperand codeword))
  | .lutrd K M codeword => .req (requestWord 2 K M (codeOperand codeword))
  | .buildlut K M maxValue => .argv (K ++ M ++ maxValue)

/-! ## Match and mask of each request row (R41) -/

/-- The fixed bits of the row a request operation belongs to, as `(match, mask)`; the tuple of BUILDLUT has none. -/
def Instr.rowPattern : Instr → Option (ReqWord × ReqWord)
  | .enc _ _ _ => some (0x0000000000000, 0x3000000000000)
  | .dec _ _ _ => some (0x1000000000000, 0x30000FFFFFF00)
  | .lutrd _ _ _ => some (0x2000000000000, 0x30000FFFFFF00)
  | .buildlut _ _ _ => none

/-! ## The opcode table's numbering of bits -/

/-- The word a row of spec/opcode_table.json stands for when its bits are the number `w`. The table numbers the 49 bits of
BUILDLUT's tuple and the 50 bits of a request from bit 0; `nbits = 49` asks for the tuple, any other count for the
request. DESIGN CHOICE: log entry 12. -/
def tableWord (nbits w : Nat) : InstrWord :=
  if nbits = 49 then .argv (BitVec.ofNat 49 w) else .req (BitVec.ofNat 50 w)

/-- The operation the decoder reads from the bits `w`; a number with a bit above the word's width is no word. -/
def decodeTableWord (nbits w : Nat) : Option Instr :=
  if w < 2 ^ (if nbits = 49 then 49 else 50) then
    match decode (tableWord nbits w) with
    | .instr i => some i
    | .rejected _ => none
  else none

/-! ## Written numbers and the command line (R50, R51) -/

/-- The value of a decimal digit. -/
def digit? (c : Char) : Option Nat :=
  if 48 ≤ c.toNat ∧ c.toNat ≤ 57 then some (c.toNat - 48) else none

/-- The number a row of digits adds to those already read. -/
def digits? (acc : Nat) : Text → Option Nat
  | [] => some acc
  | c :: rest =>
    match digit? c with
    | some d => digits? (acc * 10 + d) rest
    | none => none

/-- An unsigned decimal numeral: one digit or more, nothing else (R51, R103). DESIGN CHOICE on leading zeros:
log entry 10. -/
def numeral? : Text → Option Nat
  | [] => none
  | c :: rest => digits? 0 (c :: rest)

/-- The three positional arguments K, M, maxValue of the tool, if R103 accepts them. -/
def parseArgs : List Text → Option (Param × Param × Nat)
  | [k, m, n] =>
    match numeral? k, numeral? m, numeral? n with
    | some K, some M, some N =>
      if K ≤ 255 ∧ M ≤ 255 ∧ N ≤ Config.maxSweep then some (BitVec.ofNat 8 K, BitVec.ofNat 8 M, N) else none
    | _, _, _ => none
  | _ => none

/-- The decimal digits of `n`, written before `acc`; `fuel` bounds their number. -/
def decimalOnto : (fuel : Nat) → (n : Nat) → (acc : Text) → Text
  | 0, _, acc => acc
  | fuel + 1, n, acc =>
    let written := Char.ofNat (48 + n % 10) :: acc
    if n < 10 then written else decimalOnto fuel (n / 10) written

/-- `n` in decimal without leading zeros (R50). -/
def decimal (n : Nat) : Text := decimalOnto (n + 1) n []

/-- One line of the table, `codeword:representativeValue` and a line feed (R50). -/
def pairLine (p : Code × Sample) : Text := decimal p.1.toNat ++ ':' :: decimal p.2.toNat ++ ['\n']

/-- The table as the tool prints it: one line per pair, in order, nothing else (R52). -/
def tableText (pairs : List (Code × Sample)) : Text := pairs.flatMap pairLine

/-- The arguments a caller writes for a call of the tool (R51). -/
def commandLine (K M : Param) (maxValue : Nat) : List Text := [decimal K.toNat, decimal M.toNat, decimal maxValue]

end Sys2Proof
end

