-- ==== Sys2Proof/Machine/Flags.lean ====
section
/-! DEFINITION. The status of a response, the only flag-like output of the block (spec/10_state.md R12), its codes
(spec/30_encoding.md R43, spec/60_exceptions.md R141), the tagged result of an operation and the response word (R42). -/

namespace Sys2Proof.Machine

/-- The failure kinds of R43 and R141; no other failure exists. -/
inductive Failure where
  /-- ENC, DEC: `valid(K, M)` is false (R142). -/
  | invalidParams
  /-- ENC: the needed exponent field exceeds `2^K - 1` (R143). -/
  | expOverflow
  /-- DEC: the reconstructed value does not fit 32 bits (R144). -/
  | decRange
  /-- LUTRD: the table has no entry for the codeword (R145). -/
  | lutAbsent
  /-- LUTRD: the request's (K, M) is not the table's (R145). -/
  | lutMismatch
  /-- Any request: reserved `op`, or reserved bits of `data` not zero (R47). -/
  | badRequest
  deriving DecidableEq, Repr

/-- The status of a response: OK or one failure (R43). Code 7 is never produced and has no constructor. -/
inductive Status where
  | ok
  | failed (why : Failure)
  deriving DecidableEq, Repr

/-- The success/failure tagged union an operation computes (R43, R69): a failure is not a value. -/
inductive Result (α : Type) where
  | ok (value : α)
  | fail (why : Failure)
  deriving DecidableEq, Repr

/-- The status a result is reported under. -/
def Result.status {α : Type} : Result α → Status
  | .ok _ => .ok
  | .fail why => .failed why

/-- The numeric status codes (R43). -/
def Status.code : Status → BitVec 3
  | .ok => 0
  | .failed .invalidParams => 1
  | .failed .expOverflow => 2
  | .failed .decRange => 3
  | .failed .lutAbsent => 4
  | .failed .lutMismatch => 5
  | .failed .badRequest => 6

/-- The status a code stands for; 7 stands for none (R43). -/
def Status.ofCode (c : BitVec 3) : Option Status :=
  match c.toNat with
  | 0 => some .ok
  | 1 => some (.failed .invalidParams)
  | 2 => some (.failed .expOverflow)
  | 3 => some (.failed .decRange)
  | 4 => some (.failed .lutAbsent)
  | 5 => some (.failed .lutMismatch)
  | 6 => some (.failed .badRequest)
  | _ => none

/-- One response: a status and 32 bits of data (R42). -/
structure Response where
  status : Status
  data : Sample
  deriving DecidableEq, Repr

/-- `RSP[34:0] = {status, data}` (R42). -/
def Response.word (r : Response) : RspWord := r.status.code ++ r.data

/-- The response a word on the port stands for. -/
def Response.ofWord (w : RspWord) : Option Response :=
  match Status.ofCode (w.extractLsb' 32 3) with
  | some st => some ⟨st, w.extractLsb' 0 32⟩
  | none => none

end Sys2Proof.Machine
end

