-- ==== Sys2Proof/Machine/Operands.lean ====
section
/-! DEFINITION. The parameter pair and the sub-fields of a codeword, on natural numbers
(spec/10_state.md R14, spec/30_encoding.md R44, R54, spec/41_decode.md R77, R78). -/

namespace Sys2Proof.Machine

/-- `valid(K, M)`: K ≤ 7, M ≤ 7 and K + M ≤ 8, the sum exact (R14). -/
abbrev valid (K M : Nat) : Prop := K ≤ 7 ∧ M ≤ 7 ∧ K + M ≤ 8

/-- `msb(v)`: the position of the highest set bit of `v ≥ 1` (spec/00_scope.md R6). -/
def msb (v : Nat) : Nat := Nat.log2 v

/-- The linear threshold `2^(M+1)`: samples and codewords below it are stored as they are (R44). -/
def linearLimit (M : Nat) : Nat := 2 ^ (M + 1)

/-- The low M bits of a codeword (R44). -/
def mantissa (c M : Nat) : Nat := c &&& (2 ^ M - 1)

/-- The bits of a codeword above its mantissa (R44). -/
def field (c M : Nat) : Nat := c >>> M

/-- The shift count of an exponential codeword: the field less its bias of one (R77). -/
def exponent (c M : Nat) : Nat := field c M - 1

/-- The mantissa with the implicit leading bit put back (R77). -/
def realMantissa (c M : Nat) : Nat := mantissa c M ||| 2 ^ M

/-- The smallest sample of an exponential codeword's bucket (R78). -/
def low (c M : Nat) : Nat := realMantissa c M <<< exponent c M

/-- The largest sample of an exponential codeword's bucket (R78). -/
def high (c M : Nat) : Nat := low c M ||| (2 ^ exponent c M - 1)

/-- The floor of half an exact sum, which needs 33 bits (R78, R96, spec/70_reset_and_hazards.md R171). -/
def midpoint (a b : Nat) : Nat := (a + b) / 2

end Sys2Proof.Machine
end

