-- ==== Sys2Proof/Machine/Codec.lean ====
section
/-! DEFINITION. The two pure functions of the codec: the encoder (spec/40_encode.md R60) and the reconstructor
(spec/41_decode.md R75), written as their pseudocode on natural numbers. -/

namespace Sys2Proof.Machine

/-- The shift loop of the encoder from `(shifted, field)` on (R63). `fuel` bounds the iterations: a 32-bit sample takes at
most 31 (R68; log entry 15). -/
def shiftLoop (M : Nat) : (fuel : Nat) → (shifted field : Nat) → Nat × Nat
  | 0, shifted, field => (shifted, field)
  | fuel + 1, shifted, field =>
    if shifted > 2 ^ (M + 1) - 1 then shiftLoop M fuel (shifted >>> 1) (field + 1) else (shifted, field)

/-- ENC on a sample `value < 2^32` (R60 to R65): the codeword or the failure. -/
def enc (value K M : Nat) : Result Code :=
  if valid K M then
    if value < linearLimit M then .ok (BitVec.ofNat 8 value)
    else
      let r := shiftLoop M 32 value 1
      if r.2 > 2 ^ K - 1 then .fail .expOverflow
      else .ok (BitVec.ofNat 8 ((r.1 &&& (2 ^ M - 1)) + (r.2 <<< M)))
  else .fail .invalidParams

/-- The bare codeword output of the encoder: the sentinel on every failure (R61, R64, R69). -/
def bareCode : Result Code → Code
  | .ok c => c
  | .fail _ => Config.sentinel

/-- The reconstruction of a codeword as a natural number, defined for every codeword (R78, R80). -/
def decodeNat (c M : Nat) : Nat :=
  if c < linearLimit M then c else midpoint (low c M) (high c M)

/-- DEC on a codeword (R75 to R81): the value or the failure. -/
def dec (c K M : Nat) : Result Sample :=
  if valid K M then
    if c < linearLimit M then .ok (BitVec.ofNat 32 c)
    else if exponent c M > 31 - M then .fail .decRange
    else .ok (BitVec.ofNat 32 (decodeNat c M))
  else .fail .invalidParams

/-- The overflow threshold `T(K, M)`: the least sample ENC answers EXP_OVERFLOW (R70). -/
def overflowLimit (K M : Nat) : Nat := 2 ^ max (2 ^ K - 1 + M) (M + 1)

end Sys2Proof.Machine
end

