-- ==== Sys2Proof/Machine/Memory.lean ====
section
/-! DEFINITION. The only memory of the block, the LookupTable (spec/10_state.md R16, spec/20_memory.md R25 to R29):
256 entries `(present, value)` indexed by codeword, held sparsely. An index that is listed is present; an index that is
not listed is absent. The list is in one canonical form, so that equal tables are equal data. -/

namespace Sys2Proof.Machine

/-- One entry of the table (R26). -/
structure LutEntry where
  present : Bool
  value : Sample
  deriving DecidableEq, Repr

/-- `LUT[c][32:0] = {present, value}` (R26). -/
def LutEntry.word (e : LutEntry) : EntryWord := BitVec.ofBool e.present ++ e.value

/-- The present entries of the table: index and value, by rising index. -/
abbrev Memory := List (Nat × Sample)

/-- The value at an index, if the entry is present. -/
def Memory.read? : Memory → Nat → Option Sample
  | [], _ => none
  | (k, v) :: rest, a => if k = a then some v else Memory.read? rest a

/-- `LUT[a] <- {1, v}` (R28), in canonical form. -/
def Memory.write : Memory → Nat → Sample → Memory
  | [], a, v => [(a, v)]
  | (k, w) :: rest, a, v =>
    if a < k then (a, v) :: (k, w) :: rest
    else if a = k then (a, v) :: rest
    else (k, w) :: Memory.write rest a v

/-- Every index is at least `least` and below 256, and the indices rise strictly. -/
def Memory.risingFrom : Nat → Memory → Bool
  | _, [] => true
  | least, (k, _) :: rest => decide (least ≤ k) && decide (k < Config.lutEntries) && Memory.risingFrom (k + 1) rest

/-- The canonical form: strictly rising indices, all in 0..255 (R25). An absent entry is never listed, so no listed
entry equals what an unlisted index reads as. -/
def Memory.wf (m : Memory) : Bool := Memory.risingFrom 0 m

/-- The table with all 256 entries absent (R97). -/
def Memory.empty : Memory := []

/-- What an index that is not listed reads as: present = 0, and value bits the spec leaves unspecified (R26, U7), for the
table of the given build. Log entry 6. -/
def absentEntry (K M : Param) (maxValue : Nat) (c : Code) : LutEntry := ⟨false, Config.absentValue K M maxValue c⟩

end Sys2Proof.Machine
end

