-- ==== Sys2Proof/Machine/Tool.lean ====
section
/-! DEFINITION. The BUILDLUT tool: its working state (spec/10_state.md R17) and its algorithm
(spec/42_lut.md R90 to R97), one sample at a time. -/

namespace Sys2Proof.Machine

/-- A run in progress: the codeword of the last sample and the first sample of its run (R17, R92). -/
structure OpenRun where
  code : Code
  first : Nat
  deriving DecidableEq, Repr

/-- The working state of one run of the tool (R17), with the arguments of the call (R90). -/
structure Tool where
  k : Param
  m : Param
  maxValue : Nat
  /-- The sweep index: the next sample to encode (R11, R91). -/
  i : Nat
  openRun : Option OpenRun
  /-- The table being filled (R97). -/
  table : Memory
  /-- The pairs emitted so far, in emission order (R95). -/
  emitted : List (Code × Sample)
  deriving DecidableEq, Repr

/-- The tool at its start: `i = 0`, no open run, all entries absent, nothing emitted
(R162 of spec/70_reset_and_hazards.md, spec/10_state.md section 10). -/
def Tool.start (K M : Param) (maxValue : Nat) : Tool := ⟨K, M, maxValue, 0, none, Memory.empty, []⟩

/-- `emit(c0, (first + last) / 2)`: the pair goes into the table and to the end of the emitted list (R90, R96). -/
def Tool.emit (t : Tool) (r : OpenRun) (last : Nat) : Tool :=
  let v := BitVec.ofNat 32 (midpoint r.first last)
  { t with table := t.table.write r.code.toNat v, emitted := t.emitted ++ [(r.code, v)] }

/-- The open run, if there is one, is closed at `last` (R92 to R94). -/
def Tool.close (t : Tool) (last : Nat) : Tool :=
  match t.openRun with
  | some r => { t.emit r last with openRun := none }
  | none => t

/-- One iteration of the sweep when sample `i` has the given codeword, or none because its encode failed
(R90, R92, R93). -/
def Tool.sampleAs (t : Tool) (code : Option Code) : Tool :=
  match code with
  | some c =>
    match t.openRun with
    | some r =>
      if r.code = c then { t with i := t.i + 1 }
      else { t.emit r (t.i - 1) with openRun := some ⟨c, t.i⟩, i := t.i + 1 }
    | none => { t with openRun := some ⟨c, t.i⟩, i := t.i + 1 }
  | none => { t.close (t.i - 1) with i := t.i + 1 }

/-- The codeword of a sample, none where ENC fails: the tool uses the tagged result (R93). -/
def codeOf (K M i : Nat) : Option Code :=
  match enc i K M with
  | .ok c => some c
  | .fail _ => none

/-- One iteration of the sweep: one call of ENC (R91). -/
def Tool.sample (t : Tool) : Tool := t.sampleAs (codeOf t.k.toNat t.m.toNat t.i)

/-- `n` iterations of the sweep. -/
def Tool.sweep : (n : Nat) → Tool → Tool
  | 0, t => t
  | n + 1, t => Tool.sweep n t.sample

/-- The end of the sweep: the run still open is closed at `maxValue - 1` (R94). -/
def Tool.finish (t : Tool) : Tool := t.close (t.maxValue - 1)

/-- `BUILDLUT(K, M, maxValue)` run to completion (R90). -/
def buildRun (K M : Param) (maxValue : Nat) : Tool := (Tool.sweep maxValue (Tool.start K M maxValue)).finish

/-- The finished table `LUT[0..255]` (R97). -/
def builtTable (K M : Param) (maxValue : Nat) : Memory := (buildRun K M maxValue).table

/-- The pairs emitted, in emission order (R95). -/
def builtPairs (K M : Param) (maxValue : Nat) : List (Code × Sample) := (buildRun K M maxValue).emitted

end Sys2Proof.Machine
end

