-- ==== Sys2Proof/Machine/State.lean ====
section
/-! DEFINITION. The state of the machine (spec/10_state.md), the reasons a step can stop, and the state after reset
(spec/10_state.md section 10, spec/70_reset_and_hazards.md R160 to R162). -/

namespace Sys2Proof.Machine

/-- Why the machine would stop with a fault. There is no reason: every operation is total and every failure is the status
of a response (spec/60_exceptions.md R140, R141, R146), so the type has no constructor. Log entry 19. -/
inductive Fault where
  deriving DecidableEq, Repr

/-- Why an instruction has no meaning. -/
inductive Refusal where
  /-- Raised by `exec` for an instruction not modelled yet; no arm raises it. Safe: the machine stops. -/
  | notModelled (mnemonic : String)
  deriving DecidableEq, Repr

/-- What the outside world presents to the machine. Log entry 1. -/
inductive Input where
  /-- A request word, or the argument tuple of a call of BUILDLUT (spec/30_encoding.md R40, R41). -/
  | word (w : InstrWord)
  /-- A call of the command-line tool with its positional arguments (R51). -/
  | command (args : List Text)
  /-- Reset (spec/70_reset_and_hazards.md R160, R161). -/
  | reset
  deriving DecidableEq, Repr

/-- What a call of the tool prints. -/
inductive Printout where
  /-- The usage message; its text is not in the source (spec/42_lut.md R103, U8; log entry 11). -/
  | usage
  /-- The table, one line per pair (spec/30_encoding.md R52). -/
  | table (text : Text)
  deriving DecidableEq, Repr

/-- The whole state. The block itself has only the LUT and its build parameters (R10 to R16); the tool exists while it
runs (R17); the rest are its ports, whether the instance's build has been run (R90), and the counter of unspecified
values. -/
structure State where
  /-- What has been presented and not yet taken, oldest first. Log entry 1. -/
  input : List Input
  /-- The responses given, oldest first. Log entry 1. -/
  responses : List Response
  /-- LUT_K (R15). -/
  lutK : Param
  /-- LUT_M (R15). -/
  lutM : Param
  /-- LUT_MAXVALUE (R15). -/
  lutMaxValue : Nat
  /-- `LUT[0..255]` (R16, R25). -/
  lut : Memory
  /-- The model's own: whether the one build of this instance (R90) has been run as an input. Log entry 7. -/
  built : Bool
  /-- The BUILDLUT tool while it runs (R17). -/
  tool : Option Tool
  /-- What the tool has printed, oldest first (R52, R103). Log entry 1. -/
  printed : List Printout
  /-- The model's own: how many unspecified data words have been given (R42). Log entry 5. -/
  draws : Nat
  deriving DecidableEq, Repr

/-- The machine right after reset: the LUT is the finished build of the instance's parameters (R161), no tool runs, and
nothing has been presented, answered or printed. Log entries 1, 3, 5 and 7. -/
def State.reset : State where
  input := []
  responses := []
  lutK := Config.lutK
  lutM := Config.lutM
  lutMaxValue := Config.lutMaxValue.val
  lut := builtTable Config.lutK Config.lutM Config.lutMaxValue.val
  built := false
  tool := none
  printed := []
  draws := 0

end Sys2Proof.Machine
end

