-- ==== Sys2Proof/Machine/Ops.lean ====
section
/-! DEFINITION. The operations every meaning is written with: what waits for a running tool, taking an input, answering a
request, reading the LUT, printing, choosing the build of the instance, and moving the tool. -/

namespace Sys2Proof.Machine

/-- The tool is running `BUILDLUT(LUT_K, LUT_M, LUT_MAXVALUE)` (spec/70_reset_and_hazards.md R163). -/
def State.buildsInstance (s : State) (t : Tool) : Bool :=
  decide (t.k = s.lutK ∧ t.m = s.lutM ∧ t.maxValue = s.lutMaxValue)

/-- What a running tool holds back: LUTRD until the instance's own build is complete, and another build. ENC and DEC may be
used from the first moment (R163). Log entry 2. -/
def State.instrWaits (s : State) (t : Tool) : Instr → Bool
  | .enc _ _ _ => false
  | .dec _ _ _ => false
  | .lutrd _ _ _ => s.buildsInstance t
  | .buildlut _ _ _ => true

/-- An illegal request is answered before LUTRD is entered (spec/42_lut.md R101) and does not wait; a call of the tool
does. -/
def rejectWaits : Reject → Bool
  | .reservedOp => false
  | .reservedBits => false
  | .maxValueRange => true

/-- Whether an input must wait for the running tool. Log entries 2 and 14. -/
def State.inputWaits (s : State) (t : Tool) : Input → Bool
  | .command _ => true
  | .reset => false
  | .word w =>
    match decode w with
    | .instr i => s.instrWaits t i
    | .rejected why => rejectWaits why

/-- Whether an input must wait. -/
def State.waits (s : State) (x : Input) : Bool :=
  match s.tool with
  | some t => s.inputWaits t x
  | none => false

/-- The oldest input and the state without it; none when nothing is presented, or when it must wait for the tool. -/
def State.fetch (s : State) : Option (Input × State) :=
  match s.input with
  | [] => none
  | x :: rest => if s.waits x then none else some (x, { s with input := rest })

/-- `return (status, data)`: one response for one request (spec/00_scope.md R7, spec/30_encoding.md R42). -/
def State.reply (s : State) (status : Status) (data : Sample) : State :=
  { s with responses := s.responses ++ [⟨status, data⟩] }

/-- TAKING AN EXCEPTION: `return (STATUS, unspecified)`. The failure is the status of the response and nothing else is
saved or changed (spec/60_exceptions.md R140, R146); the data is a free value (R42, log entry 5). There is no return from
it (R149). -/
def State.replyFailure (s : State) (why : Failure) : State :=
  { s.reply (.failed why) (Config.freeData s.draws) with draws := s.draws + 1 }

/-- The response of DEC and LUTRD: the value, or the failure with unspecified data (R42, R84). -/
def State.replyResult (s : State) : Result Sample → State
  | .ok v => s.reply .ok v
  | .fail why => s.replyFailure why

/-- `LutRead(c)`: the pair `(present, value)` at an index; it has no side effect and never fails (R27). -/
def State.lutRead (s : State) (c : Code) : LutEntry :=
  match s.lut.read? c.toNat with
  | some v => ⟨true, v⟩
  | none => absentEntry s.lutK s.lutM s.lutMaxValue c

/-- What a call of the tool prints goes to the end of its output (R52, R103). -/
def State.print (s : State) (p : Printout) : State := { s with printed := s.printed ++ [p] }

/-- R103 (a): usage is printed and no computation is performed. -/
def State.usage (s : State) : State := s.print .usage

/-- The table and its parameters are constants: the build of the instance has been run, or a request has been answered
(R15, R29: from the first request on). Log entry 7. -/
def State.isFixed (s : State) : Bool := s.built || !s.responses.isEmpty

/-- A build begins. The first one, when no request has been answered, is the build of this instance: its arguments are
LUT_K, LUT_M and LUT_MAXVALUE (R15, R90), and the LUT is DEFINED as its finished result, so that no partly built table can
be read (spec/20_memory.md R35). Any other build is the build of another instance and leaves this one as it is
(R29, R36). Log entry 7. -/
def State.beginBuild (s : State) (K M : Param) (maxValue : Nat) : State :=
  if s.isFixed then s
  else { s with built := true, lutK := K, lutM := M, lutMaxValue := maxValue, lut := builtTable K M maxValue }

/-- A build ends: the emitted pairs are printed (R103 (b)). -/
def State.printPairs (s : State) (emitted : List (Code × Sample)) : State := s.print (.table (tableText emitted))

/-- A word that selects no operation: a request is answered BAD_REQUEST (R47), a call of the tool prints usage
(R103). -/
def State.reject (s : State) : Reject → State
  | .reservedOp => s.replyFailure .badRequest
  | .reservedBits => s.replyFailure .badRequest
  | .maxValueRange => s.usage

/-- A command line: the build begins and the tool starts, or usage is printed where R103 (a) says so. -/
def State.startCommand (s : State) (args : List Text) : State :=
  match parseArgs args with
  | some (K, M, maxValue) => { s.beginBuild K M maxValue with tool := some (Tool.start K M maxValue) }
  | none => s.usage

/-- One step of the running tool: one sample, or, when `i` has reached `maxValue`, the end of the sweep, at which the pairs
are printed and after which the tool is gone (R17, R91, R94, R103 (b)). -/
def State.advanceTool (s : State) (t : Tool) : State :=
  if t.i < t.maxValue then { s with tool := some t.sample }
  else { s.printPairs t.finish.emitted with tool := none }

/-- What a step does when it takes no input: the tool moves, if one runs. -/
def State.moveTool (s : State) : State :=
  match s.tool with
  | some t => s.advanceTool t
  | none => s

/-- Reset has no architectural effect: the LUT and its parameters survive it and the servers hold nothing
(spec/70_reset_and_hazards.md R160, R161). Log entry 14. -/
def State.afterReset (s : State) : State := s

/-- An input stands at the front of what is presented, and no tool runs, so that the next step takes it. -/
def State.present (s : State) (x : Input) : State := { s with input := x :: s.input, tool := none }

end Sys2Proof.Machine
end

