-- ==== Sys2Proof/Machine/Encoder.lean ====
section
/-! DEFINITION. ENC, the encoder (spec/40_encode.md). -/

namespace Sys2Proof.Machine

/-- The response of an encode: the codeword zero-extended, or the failure with the sentinel in the data (R42, R69). -/
def State.replyCode (s : State) (r : Result Code) : State := s.reply r.status ((bareCode r).setWidth 32)

/-- ENC K, M, value (R60 to R65, R69): it reads no state but its request and writes nothing but its response. -/
def execEnc (K M : Param) (value : Sample) (s : State) : Host.Outcome State Fault Refusal :=
  .next (s.replyCode (enc value.toNat K.toNat M.toNat))

end Sys2Proof.Machine
end

