-- ==== Sys2Proof/Machine/Reconstructor.lean ====
section
/-! DEFINITION. DEC, the reconstructor (spec/41_decode.md). -/

namespace Sys2Proof.Machine

/-- DEC K, M, codeword (R75 to R84): it reads no state but its request. -/
def execDec (K M : Param) (codeword : Code) (s : State) : Host.Outcome State Fault Refusal :=
  .next (s.replyResult (dec codeword.toNat K.toNat M.toNat))

end Sys2Proof.Machine
end

