-- ==== Sys2Proof/Machine/TableBuild.lean ====
section
/-! DEFINITION. BUILDLUT, the table builder, as one operation (spec/42_lut.md R90). The same tool run from a command line
moves one sample a step (Machine/Ops.lean, State.advanceTool); log entry 8. -/

namespace Sys2Proof.Machine

/-- BUILDLUT K, M, maxValue run to completion: where it is the build of this instance, the table and its parameters are those
of the finished build (R90, R97); its pairs are printed (R103 (b)); a `maxValue` above 2^32 prints usage and builds nothing
(R98, R103 (a)). -/
def execBuildlut (K M : Param) (maxValue : Count) (s : State) : Host.Outcome State Fault Refusal :=
  .next (if maxValue.toNat ≤ Config.maxSweep then
      (s.beginBuild K M maxValue.toNat).printPairs (builtPairs K M maxValue.toNat)
    else s.usage)

end Sys2Proof.Machine
end

