-- ==== Sys2Proof/Machine/TableRead.lean ====
section
/-! DEFINITION. LUTRD, the table read (spec/42_lut.md R101, R102). -/

namespace Sys2Proof.Machine

/-- LUTRD(codeword, K, M): the parameters are compared first, then the entry is read (R101, R102). -/
def State.lookup (s : State) (K M : Param) (codeword : Code) : Result Sample :=
  if K ≠ s.lutK ∨ M ≠ s.lutM then .fail .lutMismatch
  else
    match s.lutRead codeword with
    | ⟨false, _⟩ => .fail .lutAbsent
    | ⟨true, v⟩ => .ok v

/-- LUTRD K, M, codeword: it reads one entry and writes nothing but its response. -/
def execLutrd (K M : Param) (codeword : Code) (s : State) : Host.Outcome State Fault Refusal :=
  .next (s.replyResult (s.lookup K M codeword))

end Sys2Proof.Machine
end

