-- ==== Sys2Proof/Machine/Dispatch.lean ====
section
/-! DEFINITION. One arm per operation of spec/opcode_table.json. -/

namespace Sys2Proof.Machine

def exec (i : Instr) (s : State) : Host.Outcome State Fault Refusal :=
  match i with
  | .enc K M value => Sys2Proof.Machine.execEnc K M value s
  | .dec K M codeword => Sys2Proof.Machine.execDec K M codeword s
  | .lutrd K M codeword => Sys2Proof.Machine.execLutrd K M codeword s
  | .buildlut K M maxValue => Sys2Proof.Machine.execBuildlut K M maxValue s

end Sys2Proof.Machine
end

