-- ==== Sys2Proof/Machine/Step.lean ====
section
/-! DEFINITION. One step of the machine: the oldest input is taken, one request in, one response out; when there is none, or
it must wait for the running tool (spec/70_reset_and_hazards.md R163, spec/20_memory.md R35), the tool moves. Log entries 1
and 2. -/

namespace Sys2Proof.Machine

def step (s : State) : Host.Outcome State Fault Refusal :=
  match s.fetch with
  | none => .next s.moveTool
  | some (.command args, s') => .next (s'.startCommand args)
  | some (.reset, s') => .next s'.afterReset
  | some (.word w, s') =>
    match decode w with
    | .instr i => exec i s'
    | .rejected why => .next (s'.reject why)

/-- `s` with the word of an opcode-table row at the front of what is presented, and no tool running: the very next step
runs it. Log entries 12 and 13. -/
def State.withFetchWord (s : State) (nbits w : Nat) : State := s.present (.word (tableWord nbits w))

end Sys2Proof.Machine
end

