-- ==== Sys2Proof/Machine/InBand.lean ====
section
/-! DEFINITION. FOR COMPARISON ONLY: what the tool would emit if it read the encoder's bare byte and not its tagged result
(spec/42_lut.md R104, spec/93_implementation_defined.md U3, U4). Nothing of the machine uses it. -/

namespace Sys2Proof.Machine

/-- One iteration of the in-band sweep: a failed sample counts as a sample of codeword 0xFF (R104). -/
def Tool.sampleInBand (t : Tool) : Tool := t.sampleAs (some (bareCode (enc t.i t.k.toNat t.m.toNat)))

/-- `n` iterations of the in-band sweep. -/
def Tool.sweepInBand : (n : Nat) → Tool → Tool
  | 0, t => t
  | n + 1, t => Tool.sweepInBand n t.sampleInBand

/-- The pairs of an in-band build; `emitLast` says whether the last run is emitted (U4). -/
def inBandPairs (emitLast : Bool) (K M : Param) (maxValue : Nat) : List (Code × Sample) :=
  let t := Tool.sweepInBand maxValue (Tool.start K M maxValue)
  if emitLast then t.finish.emitted else t.emitted

end Sys2Proof.Machine
end

