-- ==== Sys2Proof/Safety.lean ====
section
/-! DEFINITION. What holds of every run: the table in use is always the finished build of the instance's parameters, a
running tool is where its index says, and while one runs the parameters are fixed (spec/20_memory.md R29, R35,
spec/10_state.md R11, R15, R17). -/

namespace Sys2Proof.Machine

/-- The working state of the tool is the one its index determines: `i` samples of the sweep from its start (R17, R91),
with `i ≤ maxValue ≤ 2^32` (R11, R98). -/
structure Tool.Inv (t : Tool) : Prop where
  accepted : t.maxValue ≤ Config.maxSweep
  index : t.i ≤ t.maxValue
  swept : t = Tool.sweep t.i (Tool.start t.k t.m t.maxValue)

/-- The invariant of the machine. -/
structure State.Inv (s : State) : Prop where
  /-- LUT_MAXVALUE is in 0..2^32 (R15). -/
  accepted : s.lutMaxValue ≤ Config.maxSweep
  /-- The LUT is the finished table of its parameters; no partly built table is ever in use (R29, R35, R97). -/
  finished : s.lut = builtTable s.lutK s.lutM s.lutMaxValue
  /-- The table is in its canonical form. -/
  canonical : s.lut.wf = true
  /-- A running tool is where its index says. -/
  running : ∀ t, s.tool = some t → t.Inv
  /-- While the tool runs the table and its parameters are constants (R15, R29). -/
  settled : s.tool ≠ none → s.isFixed = true

end Sys2Proof.Machine
end

