-- ==== Sys2Proof/Certificates/Slice0/Obligations.lean ====
section
/-! DEFINITION. The statements for the provers, in the order of spec/: the decode layer, the machine's step, ENC, DEC, the
laws that join them, LUTRD and BUILDLUT. Each docstring names the rule of spec/ it formalises. A statement about
unspecified data names the free value `Config.freeData` applied to the state's counter, of which nothing is known. -/

open Sys2Proof Sys2Proof.Machine

/-! ## Words (spec/30_encoding.md) -/

/-- R40, R41, with the words of spec/95_test_vectors.md S2, P2 and the tuple `{5, 3, 65536}`: each decodes to the
operation it stands for. -/
def Obligations.WrittenWordsDecode : Prop :=
  decode (.req 0x005030000000F) = .instr (.enc 5 3 15) ∧
  decode (.req 0x105030000003F) = .instr (.dec 5 3 63) ∧
  decode (.req 0x205030000003F) = .instr (.lutrd 5 3 63) ∧
  decode (.argv 0b0000010100000011000000000000000010000000000000000) = .instr (.buildlut 5 3 65536)

/-- R40, R41, R46: decoding the encoding of a well-formed operation gives it back, with every operand at every value. -/
def Obligations.DecodeOfEncode : Prop :=
  ∀ i : Instr, i.wellFormed = true → decode (encode i) = .instr i

/-- R40, R41, R46: each word has one meaning; no bit of it is dropped. -/
def Obligations.EncodeOfDecode : Prop :=
  ∀ (w : InstrWord) (i : Instr), decode w = .instr i → encode i = w ∧ i.wellFormed = true

/-- R41: a request selects the row whose `match` it shows under the row's `mask`, the fields are where R40 puts them, a
request that selects no row is answered BAD_REQUEST, and no request selects BUILDLUT, whose pattern is only its argument
tuple. -/
def Obligations.RequestRowsByMatchAndMask : Prop :=
  (∀ w : ReqWord,
    (w &&& 0x3000000000000 = 0x0000000000000 →
      decode (.req w) = .instr (.enc (BitVec.ofNat 8 (w.toNat / 2 ^ 40)) (BitVec.ofNat 8 (w.toNat / 2 ^ 32))
        (BitVec.ofNat 32 w.toNat))) ∧
    (w &&& 0x30000FFFFFF00 = 0x1000000000000 →
      decode (.req w) = .instr (.dec (BitVec.ofNat 8 (w.toNat / 2 ^ 40)) (BitVec.ofNat 8 (w.toNat / 2 ^ 32))
        (BitVec.ofNat 8 w.toNat))) ∧
    (w &&& 0x30000FFFFFF00 = 0x2000000000000 →
      decode (.req w) = .instr (.lutrd (BitVec.ofNat 8 (w.toNat / 2 ^ 40)) (BitVec.ofNat 8 (w.toNat / 2 ^ 32))
        (BitVec.ofNat 8 w.toNat))) ∧
    (w &&& 0x3000000000000 ≠ 0x0000000000000 → w &&& 0x30000FFFFFF00 ≠ 0x1000000000000 →
      w &&& 0x30000FFFFFF00 ≠ 0x2000000000000 →
      ∀ (s : State) (rest : List Input), s.input = .word (.req w) :: rest →
        step s = .next { s with input := rest, draws := s.draws + 1,
                                responses := s.responses ++ [⟨.failed .badRequest, Config.freeData s.draws⟩] }) ∧
    ∀ (K M : Param) (n : Count), decode (.req w) ≠ .instr (.buildlut K M n)) ∧
  ∀ a : ArgWord, a.toNat % 2 ^ 33 ≤ 2 ^ 32 →
    decode (.argv a) = .instr (.buildlut (BitVec.ofNat 8 (a.toNat / 2 ^ 41)) (BitVec.ofNat 8 (a.toNat / 2 ^ 33))
      (BitVec.ofNat 33 a.toNat))

/-- R47: a request is illegal exactly when `op = 3`, or `op` is 1 or 2 and `data[31:8] ≠ 0`; it is answered BAD_REQUEST
with unspecified data, whatever K and M are, and has no other effect. A running tool does not hold it back, since it is
decided before LUTRD is entered (R101). -/
def Obligations.IllegalRequestsAnswerBadRequest : Prop :=
  ∀ w : ReqWord,
    ((∃ why, decode (.req w) = .rejected why) ↔
      w.toNat / 2 ^ 48 = 3 ∨
      ((w.toNat / 2 ^ 48 = 1 ∨ w.toNat / 2 ^ 48 = 2) ∧ w.toNat / 2 ^ 8 % 2 ^ 24 ≠ 0)) ∧
    ∀ (s : State) (rest : List Input) (why : Reject), s.input = .word (.req w) :: rest →
      decode (.req w) = .rejected why →
      step s = .next { s with input := rest, draws := s.draws + 1,
                              responses := s.responses ++ [⟨.failed .badRequest, Config.freeData s.draws⟩] }

/-- R42, R43: `RSP = {status, data}`, the codes are those of the table, the word determines the response, and no response
has code 7. -/
def Obligations.ResponseWordHoldsStatusAndData : Prop :=
  (∀ r : Response, r.word.toNat = r.status.code.toNat * 2 ^ 32 + r.data.toNat ∧ Response.ofWord r.word = some r) ∧
  (∀ w : RspWord, Response.ofWord w = none ↔ w.toNat / 2 ^ 32 = 7) ∧
  (Status.code .ok = 0 ∧ Status.code (.failed .invalidParams) = 1 ∧ Status.code (.failed .expOverflow) = 2 ∧
   Status.code (.failed .decRange) = 3 ∧ Status.code (.failed .lutAbsent) = 4 ∧
   Status.code (.failed .lutMismatch) = 5 ∧ Status.code (.failed .badRequest) = 6)

/-- R26: `present = LUT[c][32]` and `value = LUT[c][31:0]`. -/
def Obligations.LutEntryWordHoldsPresentAndValue : Prop :=
  ∀ e : LutEntry, e.word.getLsbD 32 = e.present ∧ e.word.extractLsb' 0 32 = e.value

/-- R44, R54: a codeword is its mantissa plus its field above M bits, and the linear region is the fields 0 and 1. -/
def Obligations.CodewordSplitsAtM : Prop :=
  ∀ c M : Nat, c = mantissa c M + (field c M <<< M) ∧ mantissa c M = c % 2 ^ M ∧ field c M = c / 2 ^ M ∧
    (c < linearLimit M ↔ field c M ≤ 1)

/-- R14 with the list of spec/95_test_vectors.md V-P1: the condition, and the 43 valid pairs and no other of the 65536. -/
def Obligations.ValidPairsAreTheListed43 : Prop :=
  ∀ K M : Param, (valid K.toNat M.toNat ↔ K.toNat ≤ 7 ∧ M.toNat ≤ 7 ∧ K.toNat + M.toNat ≤ 8) ∧
    (valid K.toNat M.toNat ↔
    (K.toNat, M.toNat) ∈
      [(0,0), (0,1), (0,2), (0,3), (0,4), (0,5), (0,6), (0,7), (1,0), (1,1), (1,2), (1,3), (1,4), (1,5), (1,6), (1,7),
       (2,0), (2,1), (2,2), (2,3), (2,4), (2,5), (2,6), (3,0), (3,1), (3,2), (3,3), (3,4), (3,5),
       (4,0), (4,1), (4,2), (4,3), (4,4), (5,0), (5,1), (5,2), (5,3), (6,0), (6,1), (6,2), (7,0), (7,1)])

/-- R50: a number is written in decimal digits without leading zeros, and reading it gives it back. -/
def Obligations.DecimalNumeralsReadBack : Prop :=
  ∀ n : Nat, numeral? (decimal n) = some n ∧ ((decimal n).head? = some '0' → n = 0)

/-- R50, R52: the printed table determines the pairs and their order. -/
def Obligations.PrintedTableDeterminesPairs : Prop :=
  ∀ ps qs : List (Code × Sample), tableText ps = tableText qs → ps = qs

/-! ## The step (spec/00_scope.md, spec/10_state.md, spec/20_memory.md, spec/60_exceptions.md, spec/70_reset_and_hazards.md) -/

/-- When the oldest input is a word that decodes to `i`, a step is `exec i` on the state without that input, also while the
tool runs: then ENC and DEC are served (R163: they may be used from the first moment), and so is a LUTRD whose own build is
not the one in progress. Rests on the model's ports and on its order of the agents, log entries 1 and 2. -/
def Obligations.StepRunsTheDecodedOperation : Prop :=
  ∀ (s : State) (w : InstrWord) (i : Instr) (rest : List Input),
    (∀ t, s.tool = some t → (∃ K M v, i = .enc K M v) ∨ (∃ K M c, i = .dec K M c) ∨
      ((∃ K M c, i = .lutrd K M c) ∧ ¬ (t.k = s.lutK ∧ t.m = s.lutM ∧ t.maxValue = s.lutMaxValue))) →
    s.input = .word w :: rest → decode w = .instr i → step s = exec i { s with input := rest }

/-- The word of a table row that is placed at the front is run by the very next step. Rests on log entries 12 and 13. -/
def Obligations.StepRunsThePlacedWord : Prop :=
  ∀ (s : State) (nbits w : Nat) (i : Instr), decodeTableWord nbits w = some i →
    step (s.withFetchWord nbits w) = exec i { s with tool := none }

/-- R140, R141: no operation stops the machine; every failure is a response. -/
def Obligations.EveryStepGoesOn : Prop :=
  (∀ s : State, ∃ s', step s = .next s') ∧ ∀ (i : Instr) (s : State), ∃ s', exec i s = .next s'

/-- R35, R163: a LUTRD that is presented while `BUILDLUT(LUT_K, LUT_M, LUT_MAXVALUE)` is in progress is not served before the
build ends (log entry 2; a further call of the tool waits too, with nothing presented the tool just moves), and no step
of a build changes the table in use. The table in use is DEFINED as the finished result of the instance's build from its
begin on (log entry 7), and the table the tool ends with is that one. R11, R91: the index advances by one a step. -/
def Obligations.NoPartlyBuiltTableIsServed : Prop :=
  ∀ (s : State) (t : Tool), s.Inv → s.tool = some t →
    (∀ x, s.input.head? = some x → (∃ args, x = .command args) ∨ (∃ a, x = .word (.argv a)) ∨
      ∃ w K M c, x = .word (.req w) ∧ decode (.req w) = .instr (.lutrd K M c) ∧
        t.k = s.lutK ∧ t.m = s.lutM ∧ t.maxValue = s.lutMaxValue) →
    ∃ s', step s = .next s' ∧ s'.input = s.input ∧ s'.responses = s.responses ∧ s'.draws = s.draws ∧
      s'.lut = s.lut ∧ s'.lutK = s.lutK ∧ s'.lutM = s.lutM ∧ s'.lutMaxValue = s.lutMaxValue ∧ s'.built = s.built ∧
      (t.i < t.maxValue → s'.printed = s.printed ∧ ∃ t', s'.tool = some t' ∧ t'.i = t.i + 1 ∧ t'.Inv) ∧
      (t.i = t.maxValue → s'.tool = none ∧
        s'.printed = s.printed ++ [.table (tableText (builtPairs t.k t.m t.maxValue))] ∧
        (t.k = s.lutK → t.m = s.lutM → t.maxValue = s.lutMaxValue → t.finish.table = s.lut))

/-- R29, R35, R11, R17: every step keeps the invariant: the table in use is the finished, canonical build of the
instance's parameters, a running tool is where its index says, and while one runs the table and its parameters are
constants. -/
def Obligations.StepKeepsInvariant : Prop :=
  ∀ s s' : State, s.Inv → step s = .next s' → s'.Inv

/-- R161: the state after reset meets the invariant. -/
def Obligations.ResetMeetsInvariant : Prop := State.reset.Inv

/-- R160, R161: reset changes nothing of the block, and after reset the LUT is the finished build of its parameters. -/
def Obligations.ResetLeavesTheTable : Prop :=
  (∀ (s : State) (rest : List Input), s.input = .reset :: rest → step s = .next { s with input := rest }) ∧
  State.reset.lut = builtTable State.reset.lutK State.reset.lutM State.reset.lutMaxValue ∧
  State.reset.lutMaxValue ≤ 2 ^ 32 ∧ State.reset.tool = none

/-- R29 (and R34 (a)): once the instance's build has been run, or a request has been answered, the LUT is a constant
whatever is presented, a further BUILDLUT included: every `LutRead(c)` returns the same pair, the one the finished build of
LUT_K, LUT_M, LUT_MAXVALUE gives, and every LUTRD is answered from it. -/
def Obligations.TableIsConstantWhileServing : Prop :=
  ∀ (n : Nat) (s s' : State), s.Inv → s.built = true ∨ s.responses ≠ [] →
    Host.Core.run core n s = .next s' →
    s'.lut = s.lut ∧ s'.lutK = s.lutK ∧ s'.lutM = s.lutM ∧ s'.lutMaxValue = s.lutMaxValue ∧
    (∀ (K M : Param) (c : Code), s'.lookup K M c = s.lookup K M c) ∧
    ∀ c : Code, s'.lutRead c = s.lutRead c ∧
      (s'.lutRead c).present = ((builtTable s.lutK s.lutM s.lutMaxValue).read? c.toNat).isSome ∧
      ∀ v, (builtTable s.lutK s.lutM s.lutMaxValue).read? c.toNat = some v → s'.lutRead c = ⟨true, v⟩

/-- R8, R34, R149: each request of a sequence is answered as it would be alone, whatever was asked before it, failures
included: the same status, and the same data unless the spec leaves the data unspecified. -/
def Obligations.AnswersDependOnNoEarlierRequest : Prop :=
  ∀ (s : State) (ws : List ReqWord), s.tool = none → s.input = ws.map (fun w => .word (.req w)) →
    ∃ (s' : State) (rs : List Response), Host.Core.run core ws.length s = .next s' ∧
      s'.input = [] ∧ s'.responses = s.responses ++ rs ∧ rs.length = ws.length ∧
      ∀ (j : Nat) (w : ReqWord) (r : Response), ws[j]? = some w → rs[j]? = some r →
        ∃ (t : State) (alone : Response), step { s with input := [.word (.req w)] } = .next t ∧
          t.responses = s.responses ++ [alone] ∧ r.status = alone.status ∧
          (r.status = .ok ∨ w.toNat / 2 ^ 48 = 0 → r.data = alone.data)

/-- R120, R8: what a request is answered is a function of the request and, for LUTRD, of the table and its parameters:
two states that agree on these give the same status, and the same data where the spec fixes it. -/
def Obligations.AnswersAreAFunctionOfRequestAndTable : Prop :=
  ∀ (i : Instr) (s₁ s₂ t₁ t₂ : State), (∀ K M n, i ≠ .buildlut K M n) →
    ((∃ K M c, i = .lutrd K M c) → s₁.lut = s₂.lut ∧ s₁.lutK = s₂.lutK ∧ s₁.lutM = s₂.lutM) →
    exec i s₁ = .next t₁ → exec i s₂ = .next t₂ →
    ∃ r₁ r₂ : Response, t₁.responses = s₁.responses ++ [r₁] ∧ t₂.responses = s₂.responses ++ [r₂] ∧
      r₁.status = r₂.status ∧ (r₁.status = .ok ∨ (∃ K M v, i = .enc K M v) → r₁.data = r₂.data)

/-- R28, R8, R10: a request changes nothing but the responses (and the model's counter of unspecified data words); no
request writes the LUT: every entry reads as before. -/
def Obligations.RequestsChangeOnlyTheResponses : Prop :=
  ∀ (i : Instr) (s t : State), (∀ K M n, i ≠ .buildlut K M n) → exec i s = .next t →
    t.input = s.input ∧ t.lutK = s.lutK ∧ t.lutM = s.lutM ∧ t.lutMaxValue = s.lutMaxValue ∧ t.lut = s.lut ∧
    t.built = s.built ∧ t.tool = s.tool ∧ t.printed = s.printed ∧ (∀ c : Code, t.lutRead c = s.lutRead c) ∧
    ∃ r, t.responses = s.responses ++ [r] ∧
      (r.status = .ok ∨ (∃ K M v, i = .enc K M v) → t.draws = s.draws) ∧
      (¬ (r.status = .ok ∨ ∃ K M v, i = .enc K M v) → t.draws = s.draws + 1)

/-- R147, R141: the status of the answer to every request word, each failure with its cause, in the order of priority; only
a LUTRD (`op = 2`) whose own build is in progress waits (R163). -/
def Obligations.OneStatusByPriority : Prop :=
  ∀ (s : State) (w : ReqWord) (rest : List Input),
    (∀ u, s.tool = some u → w.toNat / 2 ^ 48 ≠ 2 ∨
      ¬ (u.k = s.lutK ∧ u.m = s.lutM ∧ u.maxValue = s.lutMaxValue)) →
    s.input = .word (.req w) :: rest →
    ∃ (t : State) (r : Response), step s = .next t ∧ t.responses = s.responses ++ [r] ∧
      (let op := w.toNat / 2 ^ 48
       let K := w.toNat / 2 ^ 40 % 2 ^ 8
       let M := w.toNat / 2 ^ 32 % 2 ^ 8
       let data := w.toNat % 2 ^ 32
       r.status =
        if op = 3 ∨ (op ≠ 0 ∧ 256 ≤ data) then .failed .badRequest
        else if op = 0 then
          if ¬ (K ≤ 7 ∧ M ≤ 7 ∧ K + M ≤ 8) then .failed .invalidParams
          else if 2 ^ (M + 1) ≤ data ∧ 2 ^ K - 1 < Nat.log2 data - M + 1 then .failed .expOverflow
          else .ok
        else if op = 1 then
          if ¬ (K ≤ 7 ∧ M ≤ 7 ∧ K + M ≤ 8) then .failed .invalidParams
          else if 2 ^ (M + 1) ≤ data ∧ 31 - M < data / 2 ^ M - 1 then .failed .decRange
          else .ok
        else if K ≠ s.lutK.toNat ∨ M ≠ s.lutM.toNat then .failed .lutMismatch
        else if s.lut.read? data = none then .failed .lutAbsent
        else .ok)

/-! ## ENC (spec/40_encode.md) -/

/-- R61: invalid parameters are answered INVALID_PARAMS with the sentinel, for every value. -/
def Obligations.EncInvalidParamsShowsSentinel : Prop :=
  ∀ (K M : Param) (value : Sample) (s : State), ¬ (K.toNat ≤ 7 ∧ M.toNat ≤ 7 ∧ K.toNat + M.toNat ≤ 8) →
    exec (.enc K M value) s =
      .next { s with responses := s.responses ++ [⟨.failed .invalidParams, 0x000000FF⟩] }

/-- R62: a sample of the linear region is its own codeword. -/
def Obligations.EncLinearIsExact : Prop :=
  ∀ (K M : Param) (value : Sample) (s : State), valid K.toNat M.toNat → value.toNat < 2 ^ (M.toNat + 1) →
    exec (.enc K M value) s = .next { s with responses := s.responses ++ [⟨.ok, value⟩] }

/-- R66, R64, R65: in the exponential region, with p the position of the leading 1, the loop ends after exactly `p - M`
shifts, with the implicit bit at bit M and the field `p - M + 1`; the codeword is the M bits below the leading 1 under that
field, or, when the field exceeds `2^K - 1`, the answer is EXP_OVERFLOW with the sentinel. -/
def Obligations.EncExponentialKeepsLeadingBits : Prop :=
  ∀ (K M : Param) (value : Sample) (s : State) (p : Nat), valid K.toNat M.toNat →
    2 ^ p ≤ value.toNat → value.toNat < 2 ^ (p + 1) → M.toNat < p →
    let shifts := p - M.toNat
    let shifted := value.toNat / 2 ^ shifts
    shiftLoop M.toNat 32 value.toNat 1 = (shifted, shifts + 1) ∧
    2 ^ M.toNat ≤ shifted ∧ shifted < 2 ^ (M.toNat + 1) ∧
    shifted - 2 ^ M.toNat = value.toNat / 2 ^ shifts % 2 ^ M.toNat ∧
    (shifts + 1 ≤ 2 ^ K.toNat - 1 →
      (shifted - 2 ^ M.toNat) + (shifts + 1) * 2 ^ M.toNat < 256 ∧
      exec (.enc K M value) s =
        .next { s with responses := s.responses ++
          [⟨.ok, BitVec.ofNat 32 ((shifted - 2 ^ M.toNat) + (shifts + 1) * 2 ^ M.toNat)⟩] }) ∧
    (2 ^ K.toNat - 1 < shifts + 1 →
      exec (.enc K M value) s =
        .next { s with responses := s.responses ++ [⟨.failed .expOverflow, 0x000000FF⟩] })

/-- R70 (with R64, R143): ENC answers EXP_OVERFLOW with the sentinel exactly for `value ≥ T(K, M)`. -/
def Obligations.EncOverflowsFromThresholdOn : Prop :=
  ∀ (K M : Param) (value : Sample) (s : State), valid K.toNat M.toNat →
    (2 ^ max (2 ^ K.toNat - 1 + M.toNat) (M.toNat + 1) ≤ value.toNat →
      exec (.enc K M value) s =
        .next { s with responses := s.responses ++ [⟨.failed .expOverflow, 0x000000FF⟩] }) ∧
    (value.toNat < 2 ^ max (2 ^ K.toNat - 1 + M.toNat) (M.toNat + 1) →
      ∃ c : Code, exec (.enc K M value) s =
        .next { s with responses := s.responses ++ [⟨.ok, BitVec.ofNat 32 c.toNat⟩] })

/-- R67, R45, R68: the codeword of a successful encode lies in its region, below `2^(K+M)` when K ≥ 1, and its field is
at most `32 - M`. -/
def Obligations.EncCodewordRange : Prop :=
  ∀ (K M v : Nat) (c : Code), v < 2 ^ 32 → enc v K M = .ok c →
    valid K M ∧
    (v < 2 ^ (M + 1) → c.toNat = v) ∧
    (2 ^ (M + 1) ≤ v → 2 ^ (M + 1) ≤ c.toNat ∧ c.toNat ≤ 2 ^ (K + M) - 1 ∧
      2 ≤ field c.toNat M ∧ field c.toNat M ≤ 2 ^ K - 1 ∧ field c.toNat M ≤ 32 - M) ∧
    (1 ≤ K → c.toNat < 2 ^ (K + M))

/-- R117: a larger sample never has a smaller codeword, in the in-band form and in the tagged form. -/
def Obligations.EncIsMonotone : Prop :=
  ∀ K M v₁ v₂ : Nat, valid K M → v₁ < v₂ → v₂ < 2 ^ 32 →
    (bareCode (enc v₁ K M)).toNat ≤ (bareCode (enc v₂ K M)).toNat ∧
    (∀ c₁ c₂, enc v₁ K M = .ok c₁ → enc v₂ K M = .ok c₂ → c₁.toNat ≤ c₂.toNat) ∧
    (∀ f, enc v₁ K M = .fail f → ∃ f', enc v₂ K M = .fail f')

/-- R126: two samples of the exponential region with the same leading 1 and the same M bits below it encode alike. -/
def Obligations.EncDropsTheLowerBits : Prop :=
  ∀ K M v₁ v₂ p : Nat, valid K M → M < p → p < 32 → 2 ^ p ≤ v₁ → v₁ < 2 ^ (p + 1) → 2 ^ p ≤ v₂ → v₂ < 2 ^ (p + 1) →
    v₁ / 2 ^ (p - M) = v₂ / 2 ^ (p - M) → enc v₁ K M = enc v₂ K M

/-- R127 with the sample sets of R48: where `0xFF` is the codeword of a success. -/
def Obligations.SentinelIsAlsoACodeword : Prop :=
  ∀ K M v : Nat, v < 2 ^ 32 →
    (enc v K M = .ok 0xFF ↔
      ((K = 0 ∨ K = 1) ∧ M = 7 ∧ v = 255) ∨ (K = 2 ∧ M = 6 ∧ 508 ≤ v ∧ v ≤ 511) ∨
      (K = 3 ∧ M = 5 ∧ 4032 ≤ v ∧ v ≤ 4095) ∨ (K = 4 ∧ M = 4 ∧ 507904 ≤ v ∧ v ≤ 524287))

/-- R169: every sample below `2^n` encodes, for n > M + 1, exactly when `2^K - 1 + M ≥ n`. -/
def Obligations.EncCoversSamplesBelowPower : Prop :=
  ∀ K M n : Nat, valid K M → M + 1 < n → n ≤ 32 →
    ((∀ v, v < 2 ^ n → ∃ c, enc v K M = .ok c) ↔ n ≤ 2 ^ K - 1 + M)

/-! ## DEC (spec/41_decode.md) -/

/-- R81: invalid parameters are answered INVALID_PARAMS with unspecified data, for every codeword. -/
def Obligations.DecInvalidParamsHasNoValue : Prop :=
  ∀ (K M : Param) (c : Code) (s : State), ¬ (K.toNat ≤ 7 ∧ M.toNat ≤ 7 ∧ K.toNat + M.toNat ≤ 8) →
    exec (.dec K M c) s =
      .next { s with responses := s.responses ++ [⟨.failed .invalidParams, Config.freeData s.draws⟩],
                     draws := s.draws + 1 }

/-- R76: a linear codeword stands for itself. -/
def Obligations.DecLinearIsExact : Prop :=
  ∀ (K M : Param) (c : Code) (s : State), valid K.toNat M.toNat → c.toNat < 2 ^ (M.toNat + 1) →
    exec (.dec K M c) s = .next { s with responses := s.responses ++ [⟨.ok, BitVec.ofNat 32 c.toNat⟩] }

/-- R79 (with R77, R78): the reconstruction of an exponential codeword of shift count e is the lower of the two central
samples of its bucket, `(realMantissa << e) + 2^(e-1) - 1`; for `e ≤ 31 - M` the bucket fits 32 bits and DEC answers it. -/
def Obligations.DecAnswersTheBucketMidpoint : Prop :=
  ∀ (K M : Param) (c : Code) (s : State), valid K.toNat M.toNat → 2 ^ (M.toNat + 1) ≤ c.toNat →
    let e := c.toNat / 2 ^ M.toNat - 1
    let lo := (c.toNat % 2 ^ M.toNat + 2 ^ M.toNat) * 2 ^ e
    let hi := lo + 2 ^ e - 1
    let mid := lo + 2 ^ (e - 1) - 1
    1 ≤ e ∧ low c.toNat M.toNat = lo ∧ high c.toNat M.toNat = hi ∧ decodeNat c.toNat M.toNat = mid ∧
    mid = (lo + hi) / 2 ∧ mid - lo = 2 ^ (e - 1) - 1 ∧ hi - mid = 2 ^ (e - 1) ∧
    (e ≤ 31 - M.toNat → hi < 2 ^ 32 ∧
      exec (.dec K M c) s = .next { s with responses := s.responses ++ [⟨.ok, BitVec.ofNat 32 mid⟩] })

/-- R80: DEC answers DEC_RANGE, with unspecified data, exactly for the exponential codewords whose field exceeds `32 - M`,
which are those whose reconstruction does not fit 32 bits; they are the codewords of R80's table, and no 32-bit sample
encodes to one; otherwise it answers the reconstruction. -/
def Obligations.DecRangeIsWhatDoesNotFit : Prop :=
  ∀ (K M : Param) (c : Code) (s : State), valid K.toNat M.toNat →
    ((2 ^ (M.toNat + 1) ≤ c.toNat ∧ 32 - M.toNat < c.toNat / 2 ^ M.toNat) ↔ 2 ^ 32 ≤ decodeNat c.toNat M.toNat) ∧
    (2 ^ 32 ≤ decodeNat c.toNat M.toNat ↔
      (M.toNat = 0 ∧ 33 ≤ c.toNat) ∨ (M.toNat = 1 ∧ 64 ≤ c.toNat) ∨ (M.toNat = 2 ∧ 124 ≤ c.toNat) ∨
      (M.toNat = 3 ∧ 240 ≤ c.toNat)) ∧
    (2 ^ 32 ≤ decodeNat c.toNat M.toNat →
      (∀ v, v < 2 ^ 32 → enc v K.toNat M.toNat ≠ .ok c) ∧
      exec (.dec K M c) s =
        .next { s with responses := s.responses ++ [⟨.failed .decRange, Config.freeData s.draws⟩],
                       draws := s.draws + 1 }) ∧
    (decodeNat c.toNat M.toNat < 2 ^ 32 →
      exec (.dec K M c) s =
        .next { s with responses := s.responses ++ [⟨.ok, BitVec.ofNat 32 (decodeNat c.toNat M.toNat)⟩] })

/-- R82: K is not used: under two valid pairs with the same M a codeword is answered alike. -/
def Obligations.DecDoesNotUseK : Prop :=
  ∀ (K₁ K₂ M : Param) (c : Code) (s : State), valid K₁.toNat M.toNat → valid K₂.toNat M.toNat →
    exec (.dec K₁ M c) s = exec (.dec K₂ M c) s

/-! ## Laws that join ENC and DEC (spec/43_properties.md) -/

/-- R121: an exponential codeword is the codeword of exactly the samples of its bucket, when its field fits K bits. -/
def Obligations.BucketCharacterisesCodeword : Prop :=
  ∀ (K M v : Nat) (c : Code), valid K M → v < 2 ^ 32 → 2 ^ (M + 1) ≤ c.toNat →
    (enc v K M = .ok c ↔ low c.toNat M ≤ v ∧ v ≤ high c.toNat M ∧ field c.toNat M ≤ 2 ^ K - 1)

/-- R118, R85: decoding the codeword of a sample gives the sample in the linear region and a member of the sample's bucket
in the exponential one; it never fails. -/
def Obligations.DecOfEncIsInTheBucket : Prop :=
  ∀ (K M v : Nat) (c : Code), v < 2 ^ 32 → enc v K M = .ok c →
    ∃ d : Sample, dec c.toNat K M = .ok d ∧ (v < 2 ^ (M + 1) → d.toNat = v) ∧
      (2 ^ (M + 1) ≤ v → low c.toNat M ≤ d.toNat ∧ d.toNat ≤ high c.toNat M ∧
        low c.toNat M ≤ v ∧ v ≤ high c.toNat M)

/-- R122: the buckets tile the samples: the first starts at `2^(M+1)`, each next one starts where the last ended plus one,
and a bucket of shift count s holds `2^s` samples. That the samples below `2^(M+1)` are their own codewords is
EncLinearIsExact. -/
def Obligations.BucketsTileTheSamples : Prop :=
  ∀ (M : Nat), low (2 ^ (M + 1)) M = 2 ^ (M + 1) ∧
    ∀ c, 2 ^ (M + 1) ≤ c →
      low (c + 1) M = high c M + 1 ∧ high c M + 1 = low c M + 2 ^ exponent c M

/-- R123: the canonical codewords of (K, M): which they are, and that they are the first so many. -/
def Obligations.CanonicalCodewords : Prop :=
  ∀ (K M : Nat) (c : Code), valid K M →
    ((∃ v, v < 2 ^ 32 ∧ enc v K M = .ok c) ↔
      c.toNat < 2 ^ (M + 1) ∨ (2 ≤ K ∧ 2 ≤ field c.toNat M ∧ field c.toNat M ≤ min (2 ^ K - 1) (32 - M))) ∧
    ((∃ v, v < 2 ^ 32 ∧ enc v K M = .ok c) ↔
      c.toNat < if 2 ≤ K then 2 ^ M * (min (2 ^ K - 1) (32 - M) + 1) else 2 ^ (M + 1))

/-- R124: the reconstruction of a canonical codeword encodes to that codeword again. -/
def Obligations.ReconstructionEncodesBack : Prop :=
  ∀ (K M v : Nat) (c : Code), v < 2 ^ 32 → enc v K M = .ok c →
    ∃ d : Sample, dec c.toNat K M = .ok d ∧ enc d.toNat K M = .ok c

/-- R125: the reconstruction error is 0 in the linear region; with shift count s it is at most `2^(s-1)`, and at most
`2^(-M-1)` of the sample. -/
def Obligations.ReconstructionErrorBound : Prop :=
  ∀ (K M v : Nat) (c : Code) (d : Sample), v < 2 ^ 32 → enc v K M = .ok c → dec c.toNat K M = .ok d →
    (v < 2 ^ (M + 1) → d.toNat = v) ∧
    (2 ^ (M + 1) ≤ v →
      v ≤ d.toNat + 2 ^ (exponent c.toNat M - 1) ∧ d.toNat ≤ v + 2 ^ (exponent c.toNat M - 1) ∧
      (v - d.toNat) * 2 ^ (M + 1) ≤ v ∧ (d.toNat - v) * 2 ^ (M + 1) ≤ v)

/-! ## LUTRD (spec/42_lut.md) -/

/-- R102, R145: a request whose pair is not the table's is answered LUT_MISMATCH, whatever the entry is. -/
def Obligations.LutrdChecksThePair : Prop :=
  ∀ (K M : Param) (c : Code) (s : State), K ≠ s.lutK ∨ M ≠ s.lutM →
    exec (.lutrd K M c) s =
      .next { s with responses := s.responses ++ [⟨.failed .lutMismatch, Config.freeData s.draws⟩],
                     draws := s.draws + 1 }

/-- R101, R145: with the table's pair, a present entry is answered its value and an absent one LUT_ABSENT, also where the
pair is not valid for the codec. -/
def Obligations.LutrdReadsTheEntry : Prop :=
  ∀ (c : Code) (s : State),
    (∀ v, s.lutRead c = ⟨true, v⟩ →
      exec (.lutrd s.lutK s.lutM c) s = .next { s with responses := s.responses ++ [⟨.ok, v⟩] }) ∧
    ((s.lutRead c).present = false →
      exec (.lutrd s.lutK s.lutM c) s =
        .next { s with responses := s.responses ++ [⟨.failed .lutAbsent, Config.freeData s.draws⟩],
                       draws := s.draws + 1 })

/-- R107: LUTRD against DEC under matching, valid parameters, with L the number of swept samples that encode: a codeword of
a complete run is answered alike; a cut run is answered the midpoint of the cut run, smaller by at most `2^(e-1) - 1`;
LUTRD answers LUT_ABSENT wherever no swept sample has the codeword, so wherever DEC answers DEC_RANGE. -/
def Obligations.LutrdAgreesWithDecOnCompleteRuns : Prop :=
  ∀ (c : Code) (s : State), s.Inv → valid s.lutK.toNat s.lutM.toNat →
    let K := s.lutK.toNat
    let M := s.lutM.toNat
    let L := min s.lutMaxValue (overflowLimit K M)
    let r := s.lookup s.lutK s.lutM c
    ((∃ v, r = .ok v) ↔ ∃ i, i < s.lutMaxValue ∧ enc i K M = .ok c) ∧
    (∀ v, r = .ok v → ∃ d : Sample, dec c.toNat K M = .ok d ∧
      (c.toNat < 2 ^ (M + 1) ∨ high c.toNat M < L → v = d) ∧
      (2 ^ (M + 1) ≤ c.toNat → L ≤ high c.toNat M →
        v.toNat = (low c.toNat M + L - 1) / 2 ∧ v.toNat ≤ d.toNat ∧
        d.toNat - v.toNat ≤ 2 ^ (exponent c.toNat M - 1) - 1)) ∧
    ((¬ ∃ i, i < s.lutMaxValue ∧ enc i K M = .ok c) → r = .fail .lutAbsent) ∧
    (dec c.toNat K M = .fail .decRange → r = .fail .lutAbsent)

/-! ## BUILDLUT (spec/42_lut.md) -/

/-- R90, R97, R15, R103 (b): BUILDLUT with an accepted `maxValue` runs to completion and prints the pairs of the finished
build. The one build of the instance, before its first request, gives it its parameters and its finished table; any other
build is the build of another instance (R36) and leaves this one's table and parameters as they are. That the first build
presented before any request is the instance's, and that nothing else changes, is the model's choice, log entry 7. -/
def Obligations.BuildlutInstallsTheFinishedTable : Prop :=
  ∀ (K M : Param) (n : Count) (s : State), n.toNat ≤ 2 ^ 32 →
    (s.built = false → s.responses = [] →
      exec (.buildlut K M n) s =
        .next { s with built := true, lutK := K, lutM := M, lutMaxValue := n.toNat, lut := builtTable K M n.toNat,
                       printed := s.printed ++ [.table (tableText (builtPairs K M n.toNat))] }) ∧
    (s.built = true ∨ s.responses ≠ [] →
      exec (.buildlut K M n) s =
        .next { s with printed := s.printed ++ [.table (tableText (builtPairs K M n.toNat))] })

/-- R103 (a), R98: a call with a `maxValue` above 2^32, as a tuple or as an operation, and a command line that is not three
unsigned decimal numerals with K, M ≤ 255 and maxValue ≤ 2^32, print usage and change nothing else. -/
def Obligations.ToolPrintsUsageOnBadArguments : Prop :=
  (∀ (K M : Param) (n : Count) (s : State), 2 ^ 32 < n.toNat →
    exec (.buildlut K M n) s = .next { s with printed := s.printed ++ [.usage] }) ∧
  (∀ (s : State) (w : ArgWord) (rest : List Input), s.tool = none → s.input = .word (.argv w) :: rest →
    2 ^ 32 < w.toNat % 2 ^ 33 → step s = .next { s with input := rest, printed := s.printed ++ [.usage] }) ∧
  (∀ (s : State) (args : List Text) (rest : List Input), s.tool = none → s.input = .command args :: rest →
    (¬ ∃ a b c K M n, args = [a, b, c] ∧ numeral? a = some K ∧ numeral? b = some M ∧ numeral? c = some n ∧
      K ≤ 255 ∧ M ≤ 255 ∧ n ≤ 2 ^ 32) →
    step s = .next { s with input := rest, printed := s.printed ++ [.usage] })

/-- R91 to R94, R103 (b), R162: the command-line tool, which encodes one sample a step from its start state on, does in
`maxValue + 2` steps (its start, `maxValue` samples, its end) what BUILDLUT does as one operation, when what is presented
behind it is nothing, or waits for it: a further call of the tool, or, where the build is the instance's, a LUTRD (R163).
The two grains are log entry 8, what waits is log entry 2, which build is the instance's is log entry 7. -/
def Obligations.CommandLineToolRefinesBuildlut : Prop :=
  ∀ (s : State) (a b c : Text) (rest : List Input) (K M n : Nat), s.tool = none →
    s.input = .command [a, b, c] :: rest → numeral? a = some K → numeral? b = some M → numeral? c = some n →
    K ≤ 255 → M ≤ 255 → n ≤ 2 ^ 32 →
    (∀ x, rest.head? = some x → (∃ args, x = .command args) ∨ (∃ w, x = .word (.argv w)) ∨
      (s.built = false ∧ s.responses = [] ∧
        ∃ w K' M' c', x = .word (.req w) ∧ decode (.req w) = .instr (.lutrd K' M' c'))) →
    Host.Core.run core (n + 2) s =
      exec (.buildlut (BitVec.ofNat 8 K) (BitVec.ofNat 8 M) (BitVec.ofNat 33 n)) { s with input := rest }

/-- R92, R93, R91: after n samples of a sweep the index is n, and the open run holds the codeword of sample n - 1 and the
first sample of its run; there is none exactly at the start and after a sample that failed to encode. -/
def Obligations.OpenRunIsTheRunOfTheLastSample : Prop :=
  ∀ (K M : Param) (maxValue n : Nat), n ≤ maxValue → maxValue ≤ 2 ^ 32 →
    let t := Tool.sweep n (Tool.start K M maxValue)
    t.i = n ∧
    (∀ r, t.openRun = some r → r.first < n ∧
      (∀ j, r.first ≤ j → j < n → enc j K.toNat M.toNat = .ok r.code) ∧
      (r.first = 0 ∨ enc (r.first - 1) K.toNat M.toNat ≠ .ok r.code)) ∧
    (t.openRun = none ↔ n = 0 ∨ ∃ f, enc (n - 1) K.toNat M.toNat = .fail f)

/-- R95, R105: the pairs are emitted in strictly ascending codeword order, so each codeword at most once and at most 256
pairs, for valid and invalid parameters. -/
def Obligations.PairsAscendByCodeword : Prop :=
  ∀ (K M : Param) (maxValue : Nat), maxValue ≤ 2 ^ 32 →
    (builtPairs K M maxValue).Pairwise (fun p q => p.1.toNat < q.1.toNat) ∧ (builtPairs K M maxValue).length ≤ 256

/-- R97: an entry of the finished table is present with the value v exactly when its pair was emitted. -/
def Obligations.TableHoldsExactlyTheEmittedPairs : Prop :=
  ∀ (K M : Param) (maxValue : Nat) (c : Code) (v : Sample), maxValue ≤ 2 ^ 32 →
    ((builtTable K M maxValue).read? c.toNat = some v ↔ (c, v) ∈ builtPairs K M maxValue)

/-- R99, R98: invalid parameters, and `maxValue = 0`, give the empty table and emit nothing. -/
def Obligations.EmptyBuilds : Prop :=
  ∀ (K M : Param) (maxValue : Nat), ¬ valid K.toNat M.toNat ∨ maxValue = 0 →
    builtTable K M maxValue = [] ∧ builtPairs K M maxValue = []

/-- R106: the table in closed form, with L the number of swept samples that encode; a run is cut only by maxValue, never by
the overflow threshold, and at most one is. -/
def Obligations.TableClosedForm : Prop :=
  ∀ (K M : Param) (maxValue : Nat) (c : Code), valid K.toNat M.toNat → maxValue ≤ 2 ^ 32 →
    let L := min maxValue (2 ^ max (2 ^ K.toNat - 1 + M.toNat) (M.toNat + 1))
    let lo := low c.toNat M.toNat
    let hi := high c.toNat M.toNat
    ((builtTable K M maxValue).read? c.toNat =
      if c.toNat < 2 ^ (M.toNat + 1) then
        if c.toNat < L then some (BitVec.ofNat 32 c.toNat) else none
      else if 2 ^ K.toNat - 1 < c.toNat / 2 ^ M.toNat ∨ L ≤ lo then none
      else if hi < L then some (BitVec.ofNat 32 ((lo + hi) / 2))
      else some (BitVec.ofNat 32 ((lo + L - 1) / 2))) ∧
    (2 ^ (M.toNat + 1) ≤ c.toNat → lo < L → L ≤ hi →
      maxValue < 2 ^ max (2 ^ K.toNat - 1 + M.toNat) (M.toNat + 1) ∧
      ∀ b : Code, 2 ^ (M.toNat + 1) ≤ b.toNat → low b.toNat M.toNat < L → L ≤ high b.toNat M.toNat → b = c)

/-- R119: every pair of a build agrees with DEC, but possibly the last one, and that one too unless the sweep stopped inside
its bucket; then it is smaller by at most `2^(e-1) - 1`. -/
def Obligations.PairsAgreeWithDecWithinTolerance : Prop :=
  ∀ (K M : Param) (maxValue j : Nat) (c : Code) (v : Sample), valid K.toNat M.toNat → maxValue ≤ 2 ^ 32 →
    (builtPairs K M maxValue)[j]? = some (c, v) →
    ∃ d : Sample, dec c.toNat K.toNat M.toNat = .ok d ∧ v.toNat ≤ d.toNat ∧
      (j + 1 < (builtPairs K M maxValue).length → v = d) ∧
      (c.toNat < 2 ^ (M.toNat + 1) ∨ high c.toNat M.toNat < maxValue → v = d) ∧
      (2 ^ (M.toNat + 1) ≤ c.toNat → d.toNat - v.toNat ≤ 2 ^ (exponent c.toNat M.toNat - 1) - 1)

/-- R168, R107: a sweep up to a power of two from `2^(M+1)` on, or to the end of a bucket, has no skewed entry: every pair
is DEC's. -/
def Obligations.WholeBucketSweepsAgreeWithDec : Prop :=
  ∀ (K M : Param) (maxValue : Nat) (c : Code) (v : Sample), valid K.toNat M.toNat → maxValue ≤ 2 ^ 32 →
    ((∃ n, M.toNat + 1 ≤ n ∧ maxValue = 2 ^ n) ∨
      ∃ b : Code, 2 ^ (M.toNat + 1) ≤ b.toNat ∧ maxValue = high b.toNat M.toNat + 1) →
    (c, v) ∈ builtPairs K M maxValue → dec c.toNat K.toNat M.toNat = .ok v

/-- R108: the number of pairs of a complete sweep, and the 112 pairs of `buildLUT(5, 3, 65536)`, whose last run
[61440, 65535] is complete. -/
def Obligations.NumberOfPairs : Prop :=
  (∀ (K M : Param) (maxValue : Nat), valid K.toNat M.toNat → 2 ≤ K.toNat → maxValue ≤ 2 ^ 32 →
    min (overflowLimit K.toNat M.toNat) (2 ^ 32) ≤ maxValue →
    (builtPairs K M maxValue).length =
      2 ^ (M.toNat + 1) + 2 ^ M.toNat * min (2 ^ K.toNat - 2) (31 - M.toNat)) ∧
  (builtPairs 5 3 65536).map (fun p => p.1.toNat) = List.range 112 ∧
  (builtPairs 5 3 65536)[111]? = some (111, BitVec.ofNat 32 ((61440 + 65535) / 2))

/-- R104: what an in-band builder would emit. (i) Valid parameters and a sweep past T: a run of 0xFF more, or, where the
last bucket is itself 0xFF, that run longer. (ii) Invalid parameters: the one pair `255:(N - 1)/2` if the last run is
emitted, none if it is not. Nothing of the machine uses it. -/
def Obligations.InBandBuilderWouldDiffer : Prop :=
  (∀ (K M : Param) (maxValue : Nat), valid K.toNat M.toNat → maxValue ≤ 2 ^ 32 →
    let T := overflowLimit K.toNat M.toNat
    (maxValue ≤ T → inBandPairs true K M maxValue = builtPairs K M maxValue) ∧
    (T < maxValue →
      inBandPairs true K M maxValue =
        if (builtPairs K M maxValue).getLast?.map Prod.fst = some 0xFF then
          (builtPairs K M maxValue).dropLast ++
            [(0xFF, BitVec.ofNat 32 ((low 255 M.toNat + (maxValue - 1)) / 2))]
        else builtPairs K M maxValue ++ [(0xFF, BitVec.ofNat 32 ((T + (maxValue - 1)) / 2))])) ∧
  (∀ (K M : Param) (maxValue : Nat), ¬ valid K.toNat M.toNat → 0 < maxValue → maxValue ≤ 2 ^ 32 →
    inBandPairs true K M maxValue = [(0xFF, BitVec.ofNat 32 ((maxValue - 1) / 2))] ∧
    inBandPairs false K M maxValue = [])

/-- BUILDLUT changes only what it builds: the requests, the responses, the unspecified values and a tool in progress stay.
The build of this instance makes its arguments the parameters, and a codeword it emits no pair for reads as absent
afterwards (R97). A build of another instance, and a refused call, leave the parameters and every entry as they were
(R29, R36). Which build is the instance's is the model's choice, log entry 7. -/
def Obligations.BuildlutChangesOnlyTheTable : Prop :=
  ∀ (K M : Param) (n : Count) (s t : State), exec (.buildlut K M n) s = .next t →
    t.input = s.input ∧ t.responses = s.responses ∧ t.draws = s.draws ∧ t.tool = s.tool ∧
    (∃ p, t.printed = s.printed ++ [p]) ∧
    (n.toNat ≤ 2 ^ 32 → s.built = false → s.responses = [] →
      t.built = true ∧ t.lutK = K ∧ t.lutM = M ∧ t.lutMaxValue = n.toNat ∧
      ∀ c : Code, (∀ v, (c, v) ∉ builtPairs K M n.toNat) → (t.lutRead c).present = false) ∧
    (2 ^ 32 < n.toNat ∨ s.built = true ∨ s.responses ≠ [] →
      t.built = s.built ∧ t.lutK = s.lutK ∧ t.lutM = s.lutM ∧ t.lutMaxValue = s.lutMaxValue ∧ t.lut = s.lut ∧
      ∀ c : Code, t.lutRead c = s.lutRead c)

/-- R15, R16, R29, R36: once the instance's build has been run, or a request has been answered, every step, whatever it
takes, leaves LUT_K, LUT_M, LUT_MAXVALUE and every entry of the LUT as they were, and they stay so fixed. -/
def Obligations.EveryStepKeepsAFixedInstance : Prop :=
  ∀ s s' : State, s.built = true ∨ s.responses ≠ [] → step s = .next s' →
    (s'.built = true ∨ s'.responses ≠ []) ∧ (s.built = true → s'.built = true) ∧
    (∃ more, s'.responses = s.responses ++ more) ∧
    s'.lutK = s.lutK ∧ s'.lutM = s.lutM ∧ s'.lutMaxValue = s.lutMaxValue ∧ s'.lut = s.lut ∧
    ∀ c : Code, s'.lutRead c = s.lutRead c
end

