-- ==== Sys2Proof/Laws/Codec.lean ====
section
/-! SUPPORT. What the encoder's shift loop computes, and everything the encoder and the reconstructor can answer. -/

namespace Sys2Proof.Machine

@[simp] theorem linearLimit_eq (M : Nat) : linearLimit M = 2 ^ (M + 1) := rfl

/-- Below the linear limit the reconstruction of a codeword is the codeword (R76). -/
theorem decodeNat_linear {c M : Nat} (h : c < 2 ^ (M + 1)) : decodeNat c M = c := if_pos h

/-- From the linear limit on it is the midpoint of the bucket (R78). -/
theorem decodeNat_exponential {c M : Nat} (h : 2 ^ (M + 1) ≤ c) :
    decodeNat c M = midpoint (low c M) (high c M) := if_neg (Nat.not_lt.2 h)

/-- The shift loop stops after exactly `p - M` shifts of a value whose leading 1 is at p ≥ M, given fuel for them
(spec/40_encode.md R63, R66). -/
theorem shiftLoop_of_leading_bit {M p v : Nat} (hlo : 2 ^ p ≤ v) (hhi : v < 2 ^ (p + 1)) (hM : M ≤ p) (fuel f : Nat)
    (hfuel : p - M ≤ fuel) : shiftLoop M fuel v f = (v >>> (p - M), f + (p - M)) := by
  induction fuel generalizing p v f with
  | zero =>
    have : p = M := by omega
    subst this
    simp [shiftLoop]
  | succ fuel ih =>
    rcases Nat.eq_or_lt_of_le hM with h | h
    · subst h
      have : ¬ v > 2 ^ (M + 1) - 1 := by omega
      simp [shiftLoop, this]
    · obtain ⟨q, rfl⟩ : ∃ q, p = q + 1 := ⟨p - 1, by omega⟩
      have hgt : v > 2 ^ (M + 1) - 1 := by
        have := Nat.pow_le_pow_right (n := 2) (by omega) (show M + 1 ≤ q + 1 by omega)
        have := Nat.one_le_two_pow (n := M + 1)
        omega
      have hs : v >>> 1 = v / 2 := by simp [Nat.shiftRight_eq_div_pow]
      have hlo' : 2 ^ q ≤ v >>> 1 := by rw [hs]; rw [pow_succ] at hlo; omega
      have hhi' : v >>> 1 < 2 ^ (q + 1) := by rw [hs]; rw [pow_succ] at hhi; omega
      have hsub : q + 1 - M = (q - M) + 1 := by omega
      rw [shiftLoop, if_pos hgt, ih hlo' hhi' (by omega) (f + 1) (by omega), ← Nat.shiftRight_add, hsub]
      simp only [Prod.mk.injEq]
      exact ⟨by rw [Nat.add_comm], by omega⟩

/-- The fuel the encoder gives its loop is enough for every 32-bit sample (R68): the loop ends by its own condition. -/
theorem shiftLoop_of_sample {M p v : Nat} (hlo : 2 ^ p ≤ v) (hhi : v < 2 ^ (p + 1)) (hM : M ≤ p) (hv : v < 2 ^ 32) :
    shiftLoop M 32 v 1 = (v >>> (p - M), 1 + (p - M)) := by
  refine shiftLoop_of_leading_bit hlo hhi hM 32 1 ?_
  have : 2 ^ p < 2 ^ 32 := lt_of_le_of_lt hlo hv
  have := (Nat.pow_lt_pow_iff_right (a := 2) (by omega)).1 this
  omega

/-- Everything ENC can answer (R60 to R65). -/
theorem enc_cases (value K M : Nat) :
    (¬ valid K M ∧ enc value K M = .fail .invalidParams) ∨
    (valid K M ∧ value < 2 ^ (M + 1) ∧ enc value K M = .ok (BitVec.ofNat 8 value)) ∨
    (valid K M ∧ 2 ^ (M + 1) ≤ value ∧ 2 ^ K - 1 < (shiftLoop M 32 value 1).2 ∧
      enc value K M = .fail .expOverflow) ∨
    (valid K M ∧ 2 ^ (M + 1) ≤ value ∧ (shiftLoop M 32 value 1).2 ≤ 2 ^ K - 1 ∧
      enc value K M = .ok (BitVec.ofNat 8
        (((shiftLoop M 32 value 1).1 &&& (2 ^ M - 1)) + ((shiftLoop M 32 value 1).2 <<< M)))) := by
  by_cases hv : valid K M
  · by_cases hl : value < linearLimit M
    · exact .inr (.inl ⟨hv, hl, by rw [enc, if_pos hv, if_pos hl]⟩)
    · have hl' : 2 ^ (M + 1) ≤ value := Nat.not_lt.1 hl
      by_cases hf : (shiftLoop M 32 value 1).2 > 2 ^ K - 1
      · exact .inr (.inr (.inl ⟨hv, hl', hf, by simp only [enc, if_pos hv, if_neg hl, if_pos hf]⟩))
      · exact .inr (.inr (.inr ⟨hv, hl', Nat.not_lt.1 hf, by simp only [enc, if_pos hv, if_neg hl, if_neg hf]⟩))
  · exact .inl ⟨hv, by rw [enc, if_neg hv]⟩

/-- Everything DEC can answer (R75 to R81). -/
theorem dec_cases (c K M : Nat) :
    (¬ valid K M ∧ dec c K M = .fail .invalidParams) ∨
    (valid K M ∧ c < 2 ^ (M + 1) ∧ dec c K M = .ok (BitVec.ofNat 32 c)) ∨
    (valid K M ∧ 2 ^ (M + 1) ≤ c ∧ 31 - M < exponent c M ∧ dec c K M = .fail .decRange) ∨
    (valid K M ∧ 2 ^ (M + 1) ≤ c ∧ exponent c M ≤ 31 - M ∧
      dec c K M = .ok (BitVec.ofNat 32 (midpoint (low c M) (high c M)))) := by
  by_cases hv : valid K M
  · by_cases hl : c < linearLimit M
    · exact .inr (.inl ⟨hv, hl, by rw [dec, if_pos hv, if_pos hl]⟩)
    · have hl' : 2 ^ (M + 1) ≤ c := Nat.not_lt.1 hl
      by_cases he : exponent c M > 31 - M
      · exact .inr (.inr (.inl ⟨hv, hl', he, by rw [dec, if_pos hv, if_neg hl, if_pos he]⟩))
      · exact .inr (.inr (.inr ⟨hv, hl', Nat.not_lt.1 he, by
          rw [dec, if_pos hv, if_neg hl, if_neg he, decodeNat, if_neg hl]⟩))
  · exact .inl ⟨hv, by rw [dec, if_neg hv]⟩

/-- The codeword the tool sees is the one ENC answers under OK (spec/42_lut.md R93). -/
theorem codeOf_eq_some {K M i : Nat} {c : Code} : codeOf K M i = some c ↔ enc i K M = .ok c := by
  unfold codeOf; split <;> simp_all

theorem codeOf_eq_none {K M i : Nat} : codeOf K M i = none ↔ ∃ f, enc i K M = .fail f := by
  unfold codeOf; split <;> simp_all

end Sys2Proof.Machine
end

