-- ==== Sys2Proof/Laws/Memory.lean ====
section
/-! SUPPORT. The table as memory: a read after a write, and that every operation keeps the canonical form
(spec/20_memory.md R25 to R28). -/

namespace Sys2Proof.Machine

/-- A read after a write gives the value written, and a write leaves every other entry alone (R28). -/
theorem Memory.read?_write (m : Memory) (a : Nat) (v : Sample) (b : Nat) :
    (m.write a v).read? b = if b = a then some v else m.read? b := by
  induction m with
  | nil => simp [Memory.write, Memory.read?, eq_comm]
  | cons p rest ih =>
    obtain ⟨k, w⟩ := p
    unfold Memory.write
    split
    · simp [Memory.read?, eq_comm]
    · split
      · next h =>
        subst h
        by_cases hb : b = a
        · simp [Memory.read?, hb]
        · simp [Memory.read?, hb, Ne.symm hb]
      · next h =>
        simp only [Memory.read?, ih]
        by_cases hk : k = b
        · subst hk; simp [Ne.symm h]
        · simp [hk]

@[simp] theorem Memory.read?_empty (a : Nat) : Memory.empty.read? a = none := rfl

theorem Memory.risingFrom_cons {n k : Nat} {v : Sample} {rest : Memory} :
    Memory.risingFrom n ((k, v) :: rest) = true ↔ n ≤ k ∧ k < 256 ∧ Memory.risingFrom (k + 1) rest = true := by
  simp only [Memory.risingFrom, Bool.and_eq_true, decide_eq_true_eq, and_assoc]
  rfl

theorem Memory.risingFrom_mono {m : Memory} {n n' : Nat} (h : n ≤ n') (hm : Memory.risingFrom n' m = true) :
    Memory.risingFrom n m = true := by
  cases m with
  | nil => rfl
  | cons p rest =>
    obtain ⟨k, v⟩ := p
    rw [Memory.risingFrom_cons] at *
    exact ⟨h.trans hm.1, hm.2⟩

theorem Memory.write_risingFrom {m : Memory} {n a : Nat} (v : Sample) (hm : Memory.risingFrom n m = true)
    (ha : n ≤ a) (h256 : a < 256) : Memory.risingFrom n (m.write a v) = true := by
  induction m generalizing n with
  | nil => exact Memory.risingFrom_cons.2 ⟨ha, h256, rfl⟩
  | cons p rest ih =>
    obtain ⟨k, w⟩ := p
    rw [Memory.risingFrom_cons] at hm
    unfold Memory.write
    split
    · next h => exact Memory.risingFrom_cons.2 ⟨ha, h256, Memory.risingFrom_cons.2 ⟨h, hm.2⟩⟩
    · split
      · next h => subst h; exact Memory.risingFrom_cons.2 ⟨ha, h256, hm.2.2⟩
      · next h h' => exact Memory.risingFrom_cons.2 ⟨hm.1, hm.2.1, ih hm.2.2 (by omega)⟩

/-- `LutWrite` keeps the canonical form. -/
theorem Memory.write_wf {m : Memory} (hm : m.wf = true) (c : Code) (v : Sample) : (m.write c.toNat v).wf = true :=
  Memory.write_risingFrom v hm (Nat.zero_le _) c.isLt

@[simp] theorem Memory.empty_wf : Memory.empty.wf = true := rfl

/-- Below its least index a canonical table has no present entry. -/
theorem Memory.read?_of_lt {m : Memory} {n a : Nat} (hm : Memory.risingFrom n m = true) (ha : a < n) :
    m.read? a = none := by
  induction m generalizing n with
  | nil => rfl
  | cons p rest ih =>
    obtain ⟨k, v⟩ := p
    rw [Memory.risingFrom_cons] at hm
    simp only [Memory.read?]
    rw [if_neg (by omega)]
    exact ih hm.2.2 (by omega)

theorem Memory.ext_risingFrom {m m' : Memory} {n : Nat} (hm : Memory.risingFrom n m = true)
    (hm' : Memory.risingFrom n m' = true) (h : ∀ a, n ≤ a → m.read? a = m'.read? a) : m = m' := by
  induction m generalizing n m' with
  | nil =>
    cases m' with
    | nil => rfl
    | cons p rest =>
      obtain ⟨k, v⟩ := p
      have := h k (Memory.risingFrom_cons.1 hm').1
      simp [Memory.read?] at this
  | cons p rest ih =>
    obtain ⟨k, v⟩ := p
    have hk := Memory.risingFrom_cons.1 hm
    cases m' with
    | nil => have := h k hk.1; simp [Memory.read?] at this
    | cons p' rest' =>
      obtain ⟨k', v'⟩ := p'
      have hk' := Memory.risingFrom_cons.1 hm'
      have hkk : k = k' := by
        by_contra hne
        rcases Nat.lt_or_gt_of_ne hne with hlt | hlt
        · have := h k hk.1
          simp only [Memory.read?, if_true, if_neg (Ne.symm hne)] at this
          rw [Memory.read?_of_lt hk'.2.2 (by omega)] at this
          simp at this
        · have := h k' hk'.1
          simp only [Memory.read?, if_true, if_neg hne] at this
          rw [Memory.read?_of_lt hk.2.2 (by omega)] at this
          simp at this
      subst hkk
      have hv : v = v' := by simpa [Memory.read?] using h k hk.1
      subst hv
      refine congrArg _ (ih hk.2.2 hk'.2.2 fun a ha => ?_)
      have hne : ¬ k = a := by omega
      simpa [Memory.read?, hne] using h a (by omega)

/-- Canonical tables that read alike are the same list: equal tables are equal data. -/
theorem Memory.ext_of_wf {m m' : Memory} (hm : m.wf = true) (hm' : m'.wf = true)
    (h : ∀ a, m.read? a = m'.read? a) : m = m' := Memory.ext_risingFrom hm hm' fun a _ => h a

end Sys2Proof.Machine
end

