-- ==== Sys2Proof/Laws/PerInstr.lean ====
section
/-! SUPPORT. A statement made once for every operation, one lemma per constructor: the word an operation is encoded in shows
the `match` of its row under the row's `mask` (spec/30_encoding.md R41). -/

namespace Sys2Proof.Laws.RowPattern

/-- The encoded word lies in the row of its operation; BUILDLUT, which has no request row, is encoded in no request. -/
def Statement (i : Instr) : Prop :=
  match encode i, i.rowPattern with
  | .req w, some (pattern, mask) => w &&& mask = pattern
  | .argv _, none => True
  | _, _ => False

/-- A row's mask keeps the op field and the data bits it covers, and drops K, M and the other data bits. -/
theorem mask_requestWord (op : BitVec 2) (K M : Param) (d m : Sample) :
    requestWord op K M d &&& requestWord 3 0 0 m = requestWord op 0 0 (d &&& m) := by
  have ho : op &&& 3 = op := by revert op; decide
  change (op ++ K ++ M ++ d) &&& (3#2 ++ 0#8 ++ 0#8 ++ m) = op ++ 0#8 ++ 0#8 ++ (d &&& m)
  rw [BitVec.and_append, BitVec.and_append, BitVec.and_append, BitVec.and_zero, BitVec.and_zero]
  exact congrArg (fun x => x ++ 0#8 ++ 0#8 ++ (d &&& m)) ho

theorem mask_code (op : BitVec 2) (K M : Param) (c : Code) :
    requestWord op K M (codeOperand c) &&& 0x30000FFFFFF00 = requestWord op 0 0 0 := by
  have h := mask_requestWord op K M (codeOperand c) 0xFFFFFF00
  have hc : codeOperand c &&& 0xFFFFFF00 = 0 := by
    have : (0xFFFFFF00 : Sample) = (0xFFFFFF : BitVec 24) ++ (0 : Code) := by decide
    rw [this]
    change (0#24 ++ c) &&& (16777215#24 ++ 0#8) = 0
    rw [BitVec.and_append, BitVec.zero_and, BitVec.and_zero]
    rfl
  rw [hc] at h
  exact h

theorem enc (K M : Param) (value : Sample) : Statement (.enc K M value)  := by
  have h := mask_requestWord 0 K M value 0
  have hz : value &&& 0 = 0 := BitVec.and_zero
  rw [hz] at h
  exact h
theorem dec (K M : Param) (codeword : Code) : Statement (.dec K M codeword) := mask_code 1 K M codeword
theorem lutrd (K M : Param) (codeword : Code) : Statement (.lutrd K M codeword) := mask_code 2 K M codeword
theorem buildlut (K M : Param) (maxValue : Count) : Statement (.buildlut K M maxValue) := trivial

end Sys2Proof.Laws.RowPattern
end

