-- ==== Sys2Proof/Laws/State.lean ====
section
/-! SUPPORT. One lemma per field per operation on the state, so that no proof unfolds a record update; and the words of the
ports as the fields they are made of. -/

namespace Sys2Proof.Machine

variable (s : State)

/-! ## Answering -/

section reply
variable (st : Status) (d : Sample)

@[simp] theorem State.reply_input : (s.reply st d).input = s.input := rfl
@[simp] theorem State.reply_responses : (s.reply st d).responses = s.responses ++ [⟨st, d⟩] := rfl
@[simp] theorem State.reply_lutK : (s.reply st d).lutK = s.lutK := rfl
@[simp] theorem State.reply_lutM : (s.reply st d).lutM = s.lutM := rfl
@[simp] theorem State.reply_lutMaxValue : (s.reply st d).lutMaxValue = s.lutMaxValue := rfl
@[simp] theorem State.reply_lut : (s.reply st d).lut = s.lut := rfl
@[simp] theorem State.reply_built : (s.reply st d).built = s.built := rfl
@[simp] theorem State.reply_tool : (s.reply st d).tool = s.tool := rfl
@[simp] theorem State.reply_printed : (s.reply st d).printed = s.printed := rfl
@[simp] theorem State.reply_draws : (s.reply st d).draws = s.draws := rfl

end reply

section replyFailure
variable (f : Failure)

@[simp] theorem State.replyFailure_input : (s.replyFailure f).input = s.input := rfl
@[simp] theorem State.replyFailure_responses :
    (s.replyFailure f).responses = s.responses ++ [⟨.failed f, Config.freeData s.draws⟩] := rfl
@[simp] theorem State.replyFailure_lutK : (s.replyFailure f).lutK = s.lutK := rfl
@[simp] theorem State.replyFailure_lutM : (s.replyFailure f).lutM = s.lutM := rfl
@[simp] theorem State.replyFailure_lutMaxValue : (s.replyFailure f).lutMaxValue = s.lutMaxValue := rfl
@[simp] theorem State.replyFailure_lut : (s.replyFailure f).lut = s.lut := rfl
@[simp] theorem State.replyFailure_built : (s.replyFailure f).built = s.built := rfl
@[simp] theorem State.replyFailure_tool : (s.replyFailure f).tool = s.tool := rfl
@[simp] theorem State.replyFailure_printed : (s.replyFailure f).printed = s.printed := rfl
@[simp] theorem State.replyFailure_draws : (s.replyFailure f).draws = s.draws + 1 := rfl

end replyFailure

@[simp] theorem State.replyResult_ok (v : Sample) : s.replyResult (.ok v) = s.reply .ok v := rfl
@[simp] theorem State.replyResult_fail (f : Failure) : s.replyResult (.fail f) = s.replyFailure f := rfl
@[simp] theorem State.replyCode_ok (c : Code) : s.replyCode (.ok c) = s.reply .ok (c.setWidth 32) := rfl
@[simp] theorem State.replyCode_fail (f : Failure) : s.replyCode (.fail f) = s.reply (.failed f) 0xFF := rfl

/-! ## The tool's printing and its finished build -/

section print
variable (p : Printout)

@[simp] theorem State.print_input : (s.print p).input = s.input := rfl
@[simp] theorem State.print_responses : (s.print p).responses = s.responses := rfl
@[simp] theorem State.print_lutK : (s.print p).lutK = s.lutK := rfl
@[simp] theorem State.print_lutM : (s.print p).lutM = s.lutM := rfl
@[simp] theorem State.print_lutMaxValue : (s.print p).lutMaxValue = s.lutMaxValue := rfl
@[simp] theorem State.print_lut : (s.print p).lut = s.lut := rfl
@[simp] theorem State.print_built : (s.print p).built = s.built := rfl
@[simp] theorem State.print_tool : (s.print p).tool = s.tool := rfl
@[simp] theorem State.print_printed : (s.print p).printed = s.printed ++ [p] := rfl
@[simp] theorem State.print_draws : (s.print p).draws = s.draws := rfl

end print

theorem State.usage_eq_print : s.usage = s.print .usage := rfl

/-! ## The table and its parameters -/

@[simp] theorem State.isFixed_iff : s.isFixed = true ↔ s.built = true ∨ s.responses ≠ [] := by
  simp [State.isFixed]

@[simp] theorem State.isFixed_eq_false : s.isFixed = false ↔ s.built = false ∧ s.responses = [] := by
  simp [State.isFixed]

@[simp] theorem State.buildsInstance_iff (t : Tool) :
    s.buildsInstance t = true ↔ t.k = s.lutK ∧ t.m = s.lutM ∧ t.maxValue = s.lutMaxValue := by
  simp [State.buildsInstance]

section beginBuild
variable (K M : Param) (n : Nat)

/-- A build of another instance leaves everything as it is (R29, R36). -/
theorem State.beginBuild_of_fixed (h : s.isFixed = true) : s.beginBuild K M n = s := if_pos h

/-- The build of this instance gives it its parameters and its finished table, and nothing else (R15, R35, R90). -/
theorem State.beginBuild_of_not_fixed (h : s.isFixed = false) :
    s.beginBuild K M n = { s with built := true, lutK := K, lutM := M, lutMaxValue := n, lut := builtTable K M n } :=
  if_neg (by simp [h])

@[simp] theorem State.beginBuild_input : (s.beginBuild K M n).input = s.input := by unfold State.beginBuild; split <;> rfl
@[simp] theorem State.beginBuild_responses : (s.beginBuild K M n).responses = s.responses := by
  unfold State.beginBuild; split <;> rfl
@[simp] theorem State.beginBuild_tool : (s.beginBuild K M n).tool = s.tool := by unfold State.beginBuild; split <;> rfl
@[simp] theorem State.beginBuild_printed : (s.beginBuild K M n).printed = s.printed := by
  unfold State.beginBuild; split <;> rfl
@[simp] theorem State.beginBuild_draws : (s.beginBuild K M n).draws = s.draws := by unfold State.beginBuild; split <;> rfl

/-- What is presented plays no part in a build. -/
theorem State.beginBuild_input_comm (rest : List Input) :
    State.beginBuild { s with input := rest } K M n = { s.beginBuild K M n with input := rest } := by
  change (if s.isFixed then _ else _) = _
  unfold State.beginBuild
  split <;> rfl

/-- Once a build has begun the table and its parameters are constants. -/
theorem State.beginBuild_isFixed : (s.beginBuild K M n).isFixed = true := by
  unfold State.beginBuild
  split
  · assumption
  · simp

/-- What is fixed depends on the builds run and the responses given alone. -/
theorem State.isFixed_congr {s t : State} (hb : t.built = s.built) (hr : t.responses = s.responses) :
    t.isFixed = s.isFixed := by simp [State.isFixed, hb, hr]

end beginBuild

section printPairs
variable (ps : List (Code × Sample))

@[simp] theorem State.printPairs_input : (s.printPairs ps).input = s.input := rfl
@[simp] theorem State.printPairs_responses : (s.printPairs ps).responses = s.responses := rfl
@[simp] theorem State.printPairs_lutK : (s.printPairs ps).lutK = s.lutK := rfl
@[simp] theorem State.printPairs_lutM : (s.printPairs ps).lutM = s.lutM := rfl
@[simp] theorem State.printPairs_lutMaxValue : (s.printPairs ps).lutMaxValue = s.lutMaxValue := rfl
@[simp] theorem State.printPairs_lut : (s.printPairs ps).lut = s.lut := rfl
@[simp] theorem State.printPairs_built : (s.printPairs ps).built = s.built := rfl
@[simp] theorem State.printPairs_tool : (s.printPairs ps).tool = s.tool := rfl
@[simp] theorem State.printPairs_draws : (s.printPairs ps).draws = s.draws := rfl
@[simp] theorem State.printPairs_printed :
    (s.printPairs ps).printed = s.printed ++ [.table (tableText ps)] := rfl

end printPairs

/-! ## What waits for the tool -/

/-- With no tool nothing waits. -/
theorem State.waits_of_no_tool (h : s.tool = none) (x : Input) : s.waits x = false := by simp [State.waits, h]

/-- A reset never waits. -/
theorem State.waits_reset : s.waits .reset = false := by unfold State.waits; split <;> rfl

/-- An operation waits for a running tool as `instrWaits` says. -/
theorem State.waits_instr {t : Tool} {w : InstrWord} {i : Instr} (h : s.tool = some t) (hd : decode w = .instr i) :
    s.waits (.word w) = s.instrWaits t i := by simp only [State.waits, State.inputWaits, h, hd]

theorem State.waits_rejected {t : Tool} {w : InstrWord} {why : Reject} (h : s.tool = some t)
    (hd : decode w = .rejected why) : s.waits (.word w) = rejectWaits why := by
  simp only [State.waits, State.inputWaits, h, hd]

/-- A call of the tool waits for the tool that runs. -/
theorem State.waits_command {t : Tool} (h : s.tool = some t) (args : List Text) : s.waits (.command args) = true := by
  simp [State.waits, State.inputWaits, h]

/-! ## Taking an input -/

theorem State.fetch_nil (h : s.input = []) : s.fetch = none := by simp [State.fetch, h]

/-- An input that need not wait is taken. -/
theorem State.fetch_cons {x : Input} {rest : List Input} (h : s.input = x :: rest) (hw : s.waits x = false) :
    s.fetch = some (x, { s with input := rest }) := by simp [State.fetch, h, hw]

/-- An input that must wait is not. -/
theorem State.fetch_waits {x : Input} {rest : List Input} (h : s.input = x :: rest) (hw : s.waits x = true) :
    s.fetch = none := by simp [State.fetch, h, hw]

@[simp] theorem State.fetch_present (x : Input) : (s.present x).fetch = some (x, { s with tool := none }) := rfl
@[simp] theorem State.present_tool (x : Input) : (s.present x).tool = none := rfl

/-! ## Reading the table -/

theorem State.lutRead_of_some {c : Code} {v : Sample} (h : s.lut.read? c.toNat = some v) :
    s.lutRead c = ⟨true, v⟩ := by simp [State.lutRead, h]

theorem State.lutRead_of_none {c : Code} (h : s.lut.read? c.toNat = none) :
    s.lutRead c = absentEntry s.lutK s.lutM s.lutMaxValue c := by simp [State.lutRead, h]

/-- The entry read depends on the table and its parameters alone. -/
theorem State.lutRead_congr {s t : State} (hl : t.lut = s.lut) (hk : t.lutK = s.lutK) (hm : t.lutM = s.lutM)
    (hn : t.lutMaxValue = s.lutMaxValue) (c : Code) : t.lutRead c = s.lutRead c := by
  simp [State.lutRead, hl, hk, hm, hn]

/-- Everything a lookup can answer (R101, R102). -/
theorem State.lookup_cases (K M : Param) (c : Code) :
    ((K ≠ s.lutK ∨ M ≠ s.lutM) ∧ s.lookup K M c = .fail .lutMismatch) ∨
    (K = s.lutK ∧ M = s.lutM ∧ s.lut.read? c.toNat = none ∧ s.lookup K M c = .fail .lutAbsent) ∨
    ∃ v, K = s.lutK ∧ M = s.lutM ∧ s.lut.read? c.toNat = some v ∧ s.lookup K M c = .ok v := by
  by_cases h : K ≠ s.lutK ∨ M ≠ s.lutM
  · exact .inl ⟨h, by simp only [State.lookup, if_pos h]⟩
  · have h' : K = s.lutK ∧ M = s.lutM := by simpa [not_or] using h
    cases hr : s.lut.read? c.toNat with
    | none => exact .inr (.inl ⟨h'.1, h'.2, rfl, by simp only [State.lookup, if_neg h, s.lutRead_of_none hr, absentEntry]⟩)
    | some v => exact .inr (.inr ⟨v, h'.1, h'.2, rfl, by simp only [State.lookup, if_neg h, s.lutRead_of_some hr]⟩)

end Sys2Proof.Machine
end

