-- ==== Sys2Proof/Laws/Tool.lean ====
section
/-! SUPPORT. The tool: one lemma per field per operation, the sweep one sample at a time, and that the table being filled
keeps the canonical form. -/

namespace Sys2Proof.Machine

variable (t : Tool)

@[simp] theorem Tool.start_k (K M : Param) (n : Nat) : (Tool.start K M n).k = K := rfl
@[simp] theorem Tool.start_m (K M : Param) (n : Nat) : (Tool.start K M n).m = M := rfl
@[simp] theorem Tool.start_maxValue (K M : Param) (n : Nat) : (Tool.start K M n).maxValue = n := rfl
@[simp] theorem Tool.start_i (K M : Param) (n : Nat) : (Tool.start K M n).i = 0 := rfl
@[simp] theorem Tool.start_openRun (K M : Param) (n : Nat) : (Tool.start K M n).openRun = none := rfl
@[simp] theorem Tool.start_table (K M : Param) (n : Nat) : (Tool.start K M n).table = Memory.empty := rfl
@[simp] theorem Tool.start_emitted (K M : Param) (n : Nat) : (Tool.start K M n).emitted = [] := rfl

section emit
variable (r : OpenRun) (last : Nat)

@[simp] theorem Tool.emit_k : (t.emit r last).k = t.k := rfl
@[simp] theorem Tool.emit_m : (t.emit r last).m = t.m := rfl
@[simp] theorem Tool.emit_maxValue : (t.emit r last).maxValue = t.maxValue := rfl
@[simp] theorem Tool.emit_i : (t.emit r last).i = t.i := rfl
@[simp] theorem Tool.emit_openRun : (t.emit r last).openRun = t.openRun := rfl
@[simp] theorem Tool.emit_table :
    (t.emit r last).table = t.table.write r.code.toNat (BitVec.ofNat 32 (midpoint r.first last)) := rfl
@[simp] theorem Tool.emit_emitted :
    (t.emit r last).emitted = t.emitted ++ [(r.code, BitVec.ofNat 32 (midpoint r.first last))] := rfl

end emit

/-- Everything closing the open run can do (R92 to R94). -/
theorem Tool.close_cases (last : Nat) :
    (t.openRun = none ∧ t.close last = t) ∨
    ∃ r, t.openRun = some r ∧ t.close last = { t.emit r last with openRun := none } := by
  unfold Tool.close
  cases h : t.openRun with
  | none => exact .inl ⟨rfl, rfl⟩
  | some r => exact .inr ⟨r, rfl, rfl⟩

/-- Everything one iteration of the sweep can do (R90, R92, R93). -/
theorem Tool.sampleAs_cases (code : Option Code) :
    (∃ c, code = some c ∧ (∃ first, t.openRun = some ⟨c, first⟩) ∧ t.sampleAs code = { t with i := t.i + 1 }) ∨
    (∃ c r, code = some c ∧ t.openRun = some r ∧ r.code ≠ c ∧
      t.sampleAs code = { t.emit r (t.i - 1) with openRun := some ⟨c, t.i⟩, i := t.i + 1 }) ∨
    (∃ c, code = some c ∧ t.openRun = none ∧
      t.sampleAs code = { t with openRun := some ⟨c, t.i⟩, i := t.i + 1 }) ∨
    (∃ r, code = none ∧ t.openRun = some r ∧
      t.sampleAs code = { t.emit r (t.i - 1) with openRun := none, i := t.i + 1 }) ∨
    (code = none ∧ t.openRun = none ∧ t.sampleAs code = { t with i := t.i + 1 }) := by
  cases code with
  | some c =>
    cases h : t.openRun with
    | some r =>
      by_cases hc : r.code = c
      · exact .inl ⟨c, rfl, ⟨r.first, by rw [← hc]⟩, by simp [Tool.sampleAs, h, hc]⟩
      · exact .inr (.inl ⟨c, r, rfl, rfl, hc, by simp [Tool.sampleAs, h, hc]⟩)
    | none => exact .inr (.inr (.inl ⟨c, rfl, rfl, by simp [Tool.sampleAs, h]⟩))
  | none =>
    cases h : t.openRun with
    | some r => exact .inr (.inr (.inr (.inl ⟨r, rfl, rfl, by simp [Tool.sampleAs, Tool.close, h]⟩)))
    | none => exact .inr (.inr (.inr (.inr ⟨rfl, rfl, by simp [Tool.sampleAs, Tool.close, h]⟩)))

/-- What one iteration keeps, whatever the codeword: the arguments, and it advances the index by one (R11). -/
theorem Tool.sampleAs_args (code : Option Code) :
    (t.sampleAs code).k = t.k ∧ (t.sampleAs code).m = t.m ∧ (t.sampleAs code).maxValue = t.maxValue ∧
    (t.sampleAs code).i = t.i + 1 := by
  rcases t.sampleAs_cases code with
    ⟨c, -, -, h⟩ | ⟨c, r, -, -, -, h⟩ | ⟨c, -, -, h⟩ | ⟨r, -, -, h⟩ | ⟨-, -, h⟩ <;> simp [h]

@[simp] theorem Tool.sample_k : t.sample.k = t.k := (t.sampleAs_args _).1
@[simp] theorem Tool.sample_m : t.sample.m = t.m := (t.sampleAs_args _).2.1
@[simp] theorem Tool.sample_maxValue : t.sample.maxValue = t.maxValue := (t.sampleAs_args _).2.2.1
@[simp] theorem Tool.sample_i : t.sample.i = t.i + 1 := (t.sampleAs_args _).2.2.2

@[simp] theorem Tool.close_k (last : Nat) : (t.close last).k = t.k := by
  rcases t.close_cases last with ⟨-, h⟩ | ⟨r, -, h⟩ <;> simp [h]
@[simp] theorem Tool.close_m (last : Nat) : (t.close last).m = t.m := by
  rcases t.close_cases last with ⟨-, h⟩ | ⟨r, -, h⟩ <;> simp [h]
@[simp] theorem Tool.close_maxValue (last : Nat) : (t.close last).maxValue = t.maxValue := by
  rcases t.close_cases last with ⟨-, h⟩ | ⟨r, -, h⟩ <;> simp [h]

/-- A sweep of n + 1 samples is a sweep of n and one sample more. -/
theorem Tool.sweep_succ (n : Nat) : Tool.sweep (n + 1) t = (Tool.sweep n t).sample := by
  induction n generalizing t with
  | zero => rfl
  | succ n ih => rw [Tool.sweep, ih]; rfl

@[simp] theorem Tool.sweep_zero : Tool.sweep 0 t = t := rfl

@[simp] theorem Tool.sweep_k (n : Nat) : (Tool.sweep n t).k = t.k := by
  induction n with
  | zero => rfl
  | succ n ih => rw [Tool.sweep_succ, Tool.sample_k, ih]

@[simp] theorem Tool.sweep_m (n : Nat) : (Tool.sweep n t).m = t.m := by
  induction n with
  | zero => rfl
  | succ n ih => rw [Tool.sweep_succ, Tool.sample_m, ih]

@[simp] theorem Tool.sweep_maxValue (n : Nat) : (Tool.sweep n t).maxValue = t.maxValue := by
  induction n with
  | zero => rfl
  | succ n ih => rw [Tool.sweep_succ, Tool.sample_maxValue, ih]

/-- The index counts the samples swept (R91). -/
@[simp] theorem Tool.sweep_i (n : Nat) : (Tool.sweep n t).i = t.i + n := by
  induction n with
  | zero => rfl
  | succ n ih => rw [Tool.sweep_succ, Tool.sample_i, ih, Nat.add_assoc]

theorem Tool.emit_wf {t : Tool} (h : t.table.wf = true) (r : OpenRun) (last : Nat) : (t.emit r last).table.wf = true :=
  Memory.write_wf h r.code _

theorem Tool.close_wf {t : Tool} (h : t.table.wf = true) (last : Nat) : (t.close last).table.wf = true := by
  rcases t.close_cases last with ⟨-, hc⟩ | ⟨r, -, hc⟩
  · rwa [hc]
  · rw [hc]; exact Tool.emit_wf h r last

theorem Tool.sampleAs_wf {t : Tool} (h : t.table.wf = true) (code : Option Code) :
    (t.sampleAs code).table.wf = true := by
  rcases t.sampleAs_cases code with
    ⟨c, -, -, hs⟩ | ⟨c, r, -, -, -, hs⟩ | ⟨c, -, -, hs⟩ | ⟨r, -, -, hs⟩ | ⟨-, -, hs⟩ <;> rw [hs]
  · exact h
  · exact Tool.emit_wf h r _
  · exact h
  · exact Tool.emit_wf h r _
  · exact h

theorem Tool.sweep_wf {t : Tool} (h : t.table.wf = true) (n : Nat) : (Tool.sweep n t).table.wf = true := by
  induction n with
  | zero => exact h
  | succ n ih => rw [Tool.sweep_succ]; exact Tool.sampleAs_wf ih _

/-- The finished table is in canonical form. -/
theorem builtTable_wf (K M : Param) (n : Nat) : (builtTable K M n).wf = true :=
  Tool.close_wf (Tool.sweep_wf Memory.empty_wf n) _

@[simp] theorem buildRun_k (K M : Param) (n : Nat) : (buildRun K M n).k = K := by simp [buildRun, Tool.finish]
@[simp] theorem buildRun_m (K M : Param) (n : Nat) : (buildRun K M n).m = M := by simp [buildRun, Tool.finish]
@[simp] theorem buildRun_maxValue (K M : Param) (n : Nat) : (buildRun K M n).maxValue = n := by
  simp [buildRun, Tool.finish]

end Sys2Proof.Machine
end

