-- ==== Sys2Proof/Laws/Step.lean ====
section
/-! SUPPORT. Everything a step can do, said once; and a run one step at a time. -/

namespace Sys2Proof.Machine

/-- A step that takes no input moves the tool. -/
theorem step_of_fetch_none {s : State} (h : s.fetch = none) : step s = .next s.moveTool := by simp only [step, h]

/-- The cases of a step: the tool moves because nothing is presented or the oldest input waits for it, or the oldest
input is taken. -/
theorem step_cases (s : State) :
    ((∀ x rest, s.input = x :: rest → s.waits x = true) ∧ step s = .next s.moveTool) ∨
    (∃ args rest, s.tool = none ∧ s.input = .command args :: rest ∧
      step s = .next (State.startCommand { s with input := rest } args)) ∨
    (∃ rest, s.input = .reset :: rest ∧ step s = .next (State.afterReset { s with input := rest })) ∨
    (∃ w i rest, s.waits (.word w) = false ∧ s.input = .word w :: rest ∧ decode w = .instr i ∧
      step s = exec i { s with input := rest }) ∨
    (∃ w why rest, s.waits (.word w) = false ∧ s.input = .word w :: rest ∧ decode w = .rejected why ∧
      step s = .next (State.reject { s with input := rest } why)) := by
  cases hi : s.input with
  | nil => exact .inl ⟨by simp, by simp only [step, s.fetch_nil hi]⟩
  | cons x rest =>
    cases hw : s.waits x with
    | true => exact .inl ⟨by simp [hw], by simp only [step, s.fetch_waits hi hw]⟩
    | false =>
      refine .inr ?_
      have hf := s.fetch_cons hi hw
      cases x with
      | command args =>
        refine .inl ⟨args, rest, ?_, rfl, by simp only [step, hf]⟩
        cases ht : s.tool with
        | none => rfl
        | some t => simp [s.waits_command ht args] at hw
      | reset => exact .inr (.inl ⟨rest, rfl, by simp only [step, hf]⟩)
      | word w =>
        cases hd : decode w with
        | instr i => exact .inr (.inr (.inl ⟨w, i, rest, hw, rfl, hd, by simp only [step, hf, hd]⟩))
        | rejected why => exact .inr (.inr (.inr ⟨w, why, rest, hw, rfl, hd, by simp only [step, hf, hd]⟩))

/-- Everything the tool can do in a step (R17, R91, R94, R103 (b)). -/
theorem State.moveTool_cases (s : State) :
    (s.tool = none ∧ s.moveTool = s) ∨
    (∃ t, s.tool = some t ∧ t.i < t.maxValue ∧ s.moveTool = { s with tool := some t.sample }) ∨
    (∃ t, s.tool = some t ∧ t.maxValue ≤ t.i ∧ s.moveTool = { s.printPairs t.finish.emitted with tool := none }) := by
  cases h : s.tool with
  | none => exact .inl ⟨rfl, by simp only [State.moveTool, h]⟩
  | some t =>
    by_cases hi : t.i < t.maxValue
    · exact .inr (.inl ⟨t, rfl, hi, by simp only [State.moveTool, h, State.advanceTool, if_pos hi]⟩)
    · exact .inr (.inr ⟨t, rfl, Nat.not_lt.1 hi, by simp only [State.moveTool, h, State.advanceTool, if_neg hi]⟩)

/-- Everything a command line can do (R103). -/
theorem State.startCommand_cases (s : State) (args : List Text) :
    (∃ K M n, parseArgs args = some (K, M, n) ∧
      s.startCommand args = { s.beginBuild K M n with tool := some (Tool.start K M n) }) ∨
    (parseArgs args = none ∧ s.startCommand args = s.usage) := by
  unfold State.startCommand
  cases h : parseArgs args with
  | some p => obtain ⟨K, M, n⟩ := p; exact .inl ⟨K, M, n, rfl, rfl⟩
  | none => exact .inr ⟨rfl, rfl⟩

/-- Accepted arguments lie in the accepted ranges (R103). -/
theorem parseArgs_maxValue {args : List Text} {K M : Param} {n : Nat} (h : parseArgs args = some (K, M, n)) :
    n ≤ Config.maxSweep := by
  unfold parseArgs at h
  split at h
  · split at h
    · split at h
      · next hr => simp only [Option.some.injEq, Prod.mk.injEq] at h; exact h.2.2 ▸ hr.2.2
      · simp at h
    · simp at h
  · simp at h

@[simp] theorem run_zero (s : State) : Host.Core.run core 0 s = .next s := rfl

/-- A run of n + 1 steps whose first step goes on. -/
theorem run_succ {s s' : State} (h : step s = .next s') (n : Nat) :
    Host.Core.run core (n + 1) s = Host.Core.run core n s' := by
  have h' : core.step s = .next s' := h
  simp only [Host.Core.run, h']

end Sys2Proof.Machine
end

