-- ==== Sys2Proof/Tests/Slice0.lean ====
section
/-! SUPPORT. The model's own tests. Expected results are those of spec/95_test_vectors.md (its section is named) or of a
worked example of the rules; none is the model's own answer. Then, for every statement with hypotheses, operands and a state
that meet them, at boundary values. -/

namespace Sys2Proof.Tests

open Sys2Proof.Machine

/-- An instance built with (5, 3, n), with something presented. -/
def inst (n : Nat) (input : List Input) : State :=
  { State.reset with input := input, lutK := 5, lutM := 3, lutMaxValue := n, lut := builtTable 5 3 n }

/-- That instance after one answered request: its table and parameters are constants from then on (R29). -/
def served (n : Nat) (input : List Input) : State := { inst n input with responses := [⟨.ok, 15⟩] }

/-- That instance while the tool, after `i` samples, builds its table. -/
def building (n i : Nat) (input : List Input) : State :=
  { inst n input with built := true, tool := some (Tool.sweep i (Tool.start 5 3 n)) }

/-- The last response after an outcome. -/
def answer : Host.Outcome State Fault Refusal → Option Response
  | .next s => s.responses.getLast?
  | _ => none

/-- The status of the last response: all there is to compare where the data is unspecified. -/
def answerStatus (o : Host.Outcome State Fault Refusal) : Option Status := (answer o).map Response.status

/-- The state after an outcome that goes on. -/
def after : Host.Outcome State Fault Refusal → Option State
  | .next s => some s
  | _ => none

theorem inst_inv {n : Nat} (h : n ≤ Config.maxSweep) (input : List Input) : (inst n input).Inv :=
  ⟨h, rfl, builtTable_wf 5 3 n, fun t ht => by simp [inst, State.reset] at ht, fun ht => absurd rfl ht⟩

theorem served_inv {n : Nat} (h : n ≤ Config.maxSweep) (input : List Input) : (served n input).Inv :=
  ⟨h, rfl, builtTable_wf 5 3 n, fun t ht => by simp [served, inst, State.reset] at ht, fun ht => absurd rfl ht⟩

theorem building_inv {n i : Nat} (h : n ≤ Config.maxSweep) (hi : i ≤ n) (input : List Input) :
    (building n i input).Inv := by
  refine ⟨h, rfl, builtTable_wf 5 3 n, fun t ht => ?_, fun _ => rfl⟩
  obtain rfl : Tool.sweep i (Tool.start 5 3 n) = t := by simpa [building] using ht
  exact ⟨by simpa using h, by simpa using hi, by simp⟩

/-! ## Decoding: words written from the field tables of R40 and R41, or given by spec/95_test_vectors.md -/

-- S2: ENC 5, 3, 15
theorem test_decode_enc : decode (.req 0b00000001010000001100000000000000000000000000001111) = .instr (.enc 5 3 15) := by
  decide
-- V-E E1: ENC 5, 3, 4294967295
theorem test_decode_enc_max : decodeTableWord 50 0x00503FFFFFFFF = some (.enc 5 3 4294967295) := by decide
-- V-D D1: DEC 7, 0, 127
theorem test_decode_dec : decode (.req 0b01000001110000000000000000000000000000000001111111) = .instr (.dec 7 0 127) := by
  decide
-- V-L L3: LUTRD 4, 4, 200
theorem test_decode_lutrd : decode (.req 0b10000001000000010000000000000000000000000011001000) = .instr (.lutrd 4 4 200) := by
  decide
-- the tuple K = 2, M = 1, maxValue = 16 of P5
theorem test_decode_buildlut :
    decode (.argv 0b0000001000000001000000000000000000000000000010000) = .instr (.buildlut 2 1 16) := by decide
-- V-B: reserved op, reserved data bits
theorem test_decode_reserved_op : decode (.req 0x3FFFFFFFFFFFF) = .rejected .reservedOp := by decide
theorem test_decode_reserved_bits_dec : decode (.req 0x1050300000100) = .rejected .reservedBits := by decide
theorem test_decode_reserved_bits_lutrd : decode (.req 0x2050380000010) = .rejected .reservedBits := by decide
-- V-B: ENC has no reserved bits
theorem test_decode_enc_256 : decode (.req 0x0050300000100) = .instr (.enc 5 3 256) := by decide
-- L2: maxValue = 4294967297
theorem test_decode_argv_range : decode (.argv (BitVec.ofNat 49 4294967297)) = .rejected .maxValueRange := by decide
theorem test_decode_too_wide : decodeTableWord 50 (2 ^ 50) = none := by decide

/-! ## WellFormed: its one check refuses -/

theorem test_wellFormed_refuses_maxValue : (Instr.buildlut 5 3 4294967297).wellFormed = false := by decide

/-! ## ENC -/

-- S3, corrected: ENC 5, 3, 16 -> OK 16
theorem test_enc_first_exponential : answer (exec (.enc 5 3 16) (inst 0 [])) = some ⟨.ok, 16⟩ := by decide
-- E3: ENC 4, 4, 524288 -> EXP_OVERFLOW 255
theorem test_enc_overflow :
    answer (exec (.enc 4 4 524288) (inst 0 [])) = some ⟨.failed .expOverflow, 255⟩ := by decide

/-! ## DEC -/

-- D1: DEC 5, 3, 239 -> OK 4160749567, the 33-bit sum
theorem test_dec_largest : answer (exec (.dec 5 3 239) (inst 0 [])) = some ⟨.ok, 4160749567⟩ := by decide
-- D1: DEC 7, 0, 33 -> DEC_RANGE
theorem test_dec_range : answerStatus (exec (.dec 7 0 33) (inst 0 [])) = some (.failed .decRange) := by decide

/-! ## LUTRD -/

-- L2, R106: buildLUT(5, 3, 20) holds 17:18
theorem test_lutrd_present : answer (exec (.lutrd 5 3 17) (inst 20 [])) = some ⟨.ok, 18⟩ := by decide +kernel
-- R147: LUT_MISMATCH before LUT_ABSENT
theorem test_lutrd_mismatch_first :
    answerStatus (exec (.lutrd 4 4 200) (inst 20 [])) = some (.failed .lutMismatch) := by decide +kernel

/-! ## BUILDLUT -/

-- P5: buildlut 2 1 16
theorem test_buildlut_table : (after (exec (.buildlut 2 1 16) (inst 0 []))).map State.lut =
    some [(0, 0), (1, 1), (2, 2), (3, 3), (4, 4), (5, 6), (6, 9), (7, 13)] := by decide +kernel
-- P6: buildlut 2 0 10 prints four lines
theorem test_buildlut_text : (after (exec (.buildlut 2 0 10) (inst 0 []))).map State.printed =
    some [.table ['0', ':', '0', '\n', '1', ':', '1', '\n', '2', ':', '2', '\n', '3', ':', '5', '\n']] := by decide +kernel

/-! ## One build for an instance, and what waits for it -/

-- R29, R36: a BUILDLUT after an answered request is another instance's; LUTRD 5, 3, 18 of a (5, 3, 20) table stays absent
theorem test_later_buildlut_leaves_the_table :
    ((after (exec (.buildlut 5 3 100) (served 20 []))).map fun s => (s.lutMaxValue, s.lookup 5 3 18)) =
      some (20, .fail .lutAbsent) := by decide +kernel
-- R163: ENC is served while the instance's build is in progress
theorem test_enc_served_during_build :
    answer (step (building 1 0 [.word (.req 0x0050300000010)])) = some ⟨.ok, 16⟩ := by decide
-- R35, R163: LUTRD is not, and the tool moves
theorem test_lutrd_waits_for_build :
    (after (step (building 1 0 [.word (.req 0x2050300000000)]))).map (fun s => (s.responses, s.tool.map Tool.i)) =
      some ([], some 1) := by decide

/-! ## The tool by steps -/

-- P5, the row of i = 6: emit 4:4, open (5, 6), five pairs emitted
theorem test_tool_row : (Tool.sweep 7 (Tool.start 2 1 16)).openRun = some ⟨5, 6⟩ ∧
    (Tool.sweep 7 (Tool.start 2 1 16)).emitted = [(0, 0), (1, 1), (2, 2), (3, 3), (4, 4)] := by decide +kernel
-- P6, the row of i = 8: emit 3:5, no run opened
theorem test_tool_failed_sample : (Tool.sweep 9 (Tool.start 2 0 10)).openRun = none ∧
    (Tool.sweep 9 (Tool.start 2 0 10)).emitted = [(0, 0), (1, 1), (2, 2), (3, 5)] := by decide +kernel
-- L2: buildlut 5 3 is usage
theorem test_command_two_arguments :
    (after (step (inst 0 [.command [['5'], ['3']]]))).map State.printed = some [.usage] := by decide
-- R104 (ii) and L2: an in-band builder of (9, 0, 100) would print 255:49
theorem test_in_band : inBandPairs true 9 0 100 = [(255, 49)] := by decide +kernel
-- V-B: RSP of a bad request shows status 6
theorem test_bad_request : answerStatus (step (inst 0 [.word (.req 0x1090000000100)])) = some (.failed .badRequest) := by
  decide
-- S4: RSP of ENC 9, 0, 0 is 0x1000000FF
theorem test_response_word : (answer (step (inst 0 [.word (.req 0x0090000000000)]))).map Response.word =
    some 0x1000000FF := by decide

/-! ## Witnesses: operands and states that meet the hypotheses of the statements, clause by clause -/

theorem test_meets_DecodeOfEncode : (Instr.buildlut 255 255 4294967296).wellFormed = true := by decide
theorem test_meets_EncodeOfDecode : decode (.argv (BitVec.ofNat 49 4294967296)) = .instr (.buildlut 0 0 4294967296) := by
  decide
theorem test_meets_RequestRows_enc : (0x0FFFFFFFFFFFF : ReqWord) &&& 0x3000000000000 = 0 := by decide
theorem test_meets_RequestRows_dec : (0x1FFFF000000FF : ReqWord) &&& 0x30000FFFFFF00 = 0x1000000000000 := by decide
theorem test_meets_RequestRows_lutrd : (0x2FFFF000000FF : ReqWord) &&& 0x30000FFFFFF00 = 0x2000000000000 := by decide
theorem test_meets_RequestRows_none : (0x1050300000100 : ReqWord) &&& 0x3000000000000 ≠ 0 ∧
    (0x1050300000100 : ReqWord) &&& 0x30000FFFFFF00 ≠ 0x1000000000000 ∧
    (0x1050300000100 : ReqWord) &&& 0x30000FFFFFF00 ≠ 0x2000000000000 ∧
    (building 1 0 [.word (.req 0x1050300000100)]).input = [.word (.req 0x1050300000100)] := by decide
theorem test_meets_RequestRows_tuple : (0x1FFFF00000000 : ArgWord).toNat % 2 ^ 33 ≤ 2 ^ 32 := by decide
theorem test_meets_IllegalRequests : decode (.req 0x1050380000000) = .rejected .reservedBits ∧
    decode (.req 0x3000000000000) = .rejected .reservedOp ∧
    (building 1 0 [.word (.req 0x3000000000000)]).input = [.word (.req 0x3000000000000)] := by decide
theorem test_meets_ResponseWord_unused_code : Response.ofWord 0x700000000 = none ∧ (0x700000000 : RspWord).toNat / 2 ^ 32 = 7 := by
  decide
theorem test_meets_DecimalNumerals : (decimal 0).head? = some '0' := by decide
theorem test_meets_PrintedTable : tableText [(255, 4294967295)] = tableText [(255, 4294967295)] := rfl
theorem test_meets_StepRunsTheDecoded_no_tool : (inst 0 [.word (.req 0x2050300000011)]).tool = none ∧
    (inst 0 [.word (.req 0x2050300000011)]).input = [.word (.req 0x2050300000011)] ∧
    decode (.req 0x2050300000011) = .instr (.lutrd 5 3 17) := by decide
theorem test_meets_StepRunsTheDecoded_tool : decode (.req 0x105030000003F) = .instr (.dec 5 3 63) ∧
    (building 1 0 [.word (.req 0x105030000003F)]).input = [.word (.req 0x105030000003F)] ∧
    ¬ ((Tool.start 5 3 1).k = (inst 2 []).lutK ∧ (Tool.start 5 3 1).m = (inst 2 []).lutM ∧
      (Tool.start 5 3 1).maxValue = (inst 2 []).lutMaxValue) := by decide
theorem test_meets_StepRunsThePlacedWord : decodeTableWord 50 0x2FFFF000000FF = some (.lutrd 255 255 255) ∧
    decodeTableWord 49 (2 ^ 41 * 255 + 2 ^ 33 * 255 + 2 ^ 32) = some (.buildlut 255 255 4294967296) := by decide
theorem test_meets_NoPartlyBuilt_sweeping : (building 1 0 [.word (.req 0x2050300000000)]).Inv ∧
    (building 1 0 [.word (.req 0x2050300000000)]).tool = some (Tool.start 5 3 1) ∧
    decode (.req 0x2050300000000) = .instr (.lutrd 5 3 0) ∧ (Tool.start 5 3 1).i < (Tool.start 5 3 1).maxValue :=
  ⟨building_inv (by decide) (by decide) _, rfl, by decide, by decide⟩
theorem test_meets_NoPartlyBuilt_finished : (building 1 1 [.command []]).Inv ∧
    (building 1 1 [.command []]).tool = some (Tool.sweep 1 (Tool.start 5 3 1)) ∧
    (Tool.sweep 1 (Tool.start 5 3 1)).i = (Tool.sweep 1 (Tool.start 5 3 1)).maxValue ∧
    (Tool.sweep 1 (Tool.start 5 3 1)).k = (building 1 1 []).lutK :=
  ⟨building_inv (by decide) (by decide) _, rfl, by decide, by decide⟩
theorem test_meets_StepKeepsInvariant : (inst 20 []).Inv ∧ step (inst 20 []) = .next (inst 20 []) :=
  ⟨inst_inv (by decide) [], rfl⟩
theorem test_meets_ResetLeavesTheTable : (building 1 0 [.reset]).input = [.reset] := by decide
theorem test_meets_TableIsConstant_answered : (served 20 [.command (commandLine 5 3 100), .word (.argv 0)]).Inv ∧
    (served 20 [.command (commandLine 5 3 100), .word (.argv 0)]).responses ≠ [] ∧
    ∃ s', Host.Core.run core 1 (served 20 [.command (commandLine 5 3 100), .word (.argv 0)]) = .next s' :=
  ⟨served_inv (by decide) _, by simp [served], _, rfl⟩
theorem test_meets_TableIsConstant_built : (building 1 1 [.word (.req 0x2050300000000)]).Inv ∧
    (building 1 1 [.word (.req 0x2050300000000)]).built = true ∧
    ∃ s', Host.Core.run core 1 (building 1 1 [.word (.req 0x2050300000000)]) = .next s' :=
  ⟨building_inv (by decide) (by decide) _, rfl, _, rfl⟩
theorem test_meets_AnswersDependOnNoEarlier : (inst 20 [.word (.req 0x10503000000F0), .word (.req 0x0050300000010)]).tool = none ∧
    (inst 20 [.word (.req 0x10503000000F0), .word (.req 0x0050300000010)]).input =
      [0x10503000000F0, 0x0050300000010].map (fun w => .word (.req w)) := by decide
theorem test_meets_AnswersAreAFunction : (∀ K M n, Instr.lutrd 5 3 17 ≠ .buildlut K M n) ∧
    (inst 0 []).lut = State.lut { inst 0 [] with draws := 7 } ∧
    (∃ t, exec (.lutrd 5 3 17) (inst 0 []) = .next t) ∧
    ∃ t, exec (.lutrd 5 3 17) { inst 0 [] with draws := 7 } = .next t :=
  ⟨by simp, rfl, ⟨_, rfl⟩, _, rfl⟩
theorem test_meets_RequestsChangeOnly : (∀ K M n, Instr.dec 5 3 240 ≠ .buildlut K M n) ∧
    ∃ t, exec (.dec 5 3 240) (inst 20 []) = .next t := ⟨by simp, _, rfl⟩
theorem test_meets_OneStatus_no_tool : (inst 20 [.word (.req 0x2050300000012)]).tool = none ∧
    (inst 20 [.word (.req 0x2050300000012)]).input = [.word (.req 0x2050300000012)] := by decide
theorem test_meets_OneStatus_tool : (0x1050300000012 : ReqWord).toNat / 2 ^ 48 ≠ 2 ∧
    (Tool.start 5 2 1).m ≠ (inst 1 []).lutM ∧
    (building 1 0 [.word (.req 0x1050300000012)]).input = [.word (.req 0x1050300000012)] := by decide
theorem test_meets_EncInvalid : ¬ valid (8 : Param).toNat (0 : Param).toNat ∧ ¬ valid (0 : Param).toNat (8 : Param).toNat ∧
    ¬ valid (4 : Param).toNat (5 : Param).toNat := by decide
theorem test_meets_EncLinear : valid (5 : Param).toNat (3 : Param).toNat ∧ (15 : Sample).toNat < 2 ^ ((3 : Param).toNat + 1) := by
  decide
theorem test_meets_EncExponential_fits : valid (5 : Param).toNat (3 : Param).toNat ∧ 2 ^ 31 ≤ (4294967295 : Sample).toNat ∧
    (4294967295 : Sample).toNat < 2 ^ (31 + 1) ∧ (3 : Param).toNat < 31 ∧
    31 - (3 : Param).toNat + 1 ≤ 2 ^ (5 : Param).toNat - 1 := by decide
theorem test_meets_EncExponential_overflows : valid (4 : Param).toNat (4 : Param).toNat ∧ 2 ^ 19 ≤ (524288 : Sample).toNat ∧
    (524288 : Sample).toNat < 2 ^ (19 + 1) ∧ (4 : Param).toNat < 19 ∧
    2 ^ (4 : Param).toNat - 1 < 19 - (4 : Param).toNat + 1 := by decide
theorem test_meets_EncOverflow : valid (4 : Param).toNat (4 : Param).toNat ∧
    2 ^ max (2 ^ (4 : Param).toNat - 1 + (4 : Param).toNat) ((4 : Param).toNat + 1) ≤ (524288 : Sample).toNat ∧
    (524287 : Sample).toNat < 2 ^ max (2 ^ (4 : Param).toNat - 1 + (4 : Param).toNat) ((4 : Param).toNat + 1) := by decide
theorem test_meets_EncCodewordRange : enc 15 5 3 = .ok 15 ∧ enc 4294967295 5 3 = .ok 239 := by decide
theorem test_meets_EncIsMonotone : valid 2 0 ∧ enc 7 2 0 = .ok 3 ∧ enc 6 2 0 = .ok 3 ∧ enc 8 2 0 = .fail .expOverflow := by
  decide
theorem test_meets_EncDropsTheLowerBits : valid 5 3 ∧ 2 ^ 9 ≤ 960 ∧ 1023 < 2 ^ (9 + 1) ∧ 960 / 2 ^ (9 - 3) = 1023 / 2 ^ (9 - 3) := by decide +kernel
theorem test_meets_SentinelIsAlsoACodeword : enc 508 2 6 = .ok 255 ∧ enc 4095 3 5 = .ok 255 ∧ enc 507904 4 4 = .ok 255 ∧
    enc 524287 4 4 = .ok 255 ∧ enc 255 0 7 = .ok 255 := by decide +kernel
theorem test_meets_EncCovers : valid 5 3 ∧ 3 + 1 < 32 ∧ 32 ≤ 2 ^ 5 - 1 + 3 := by decide
theorem test_meets_DecLinear : valid (1 : Param).toNat (7 : Param).toNat ∧ (255 : Code).toNat < 2 ^ ((7 : Param).toNat + 1) := by
  decide
theorem test_meets_DecMidpoint : valid (5 : Param).toNat (3 : Param).toNat ∧ 2 ^ ((3 : Param).toNat + 1) ≤ (239 : Code).toNat ∧
    (239 : Code).toNat / 2 ^ (3 : Param).toNat - 1 ≤ 31 - (3 : Param).toNat := by decide
theorem test_meets_DecRange : valid (5 : Param).toNat (3 : Param).toNat ∧ 2 ^ 32 ≤ decodeNat 240 3 ∧
    decodeNat 239 3 < 2 ^ 32 := by decide
theorem test_meets_DecDoesNotUseK : valid (2 : Param).toNat (3 : Param).toNat ∧ valid (5 : Param).toNat (3 : Param).toNat := by
  decide
theorem test_meets_Bucket : valid 5 3 ∧ 2 ^ (3 + 1) ≤ (16 : Code).toNat ∧ enc 17 5 3 = .ok 16 := by decide
theorem test_meets_DecOfEnc : enc 15 5 3 = .ok 15 ∧ enc 16 5 3 = .ok 16 := by decide
theorem test_meets_BucketsTile : 2 ^ (3 + 1) ≤ 16 ∧ low 17 3 = high 16 3 + 1 := by decide
theorem test_meets_Canonical : valid (7 : Nat) 1 ∧ enc 3 7 1 = .ok (3 : Code) := by decide
theorem test_meets_ReconstructionEncodesBack : enc 1000 5 3 = .ok 63 ∧ dec 63 5 3 = .ok 991 ∧ enc 991 5 3 = .ok 63 := by
  decide
theorem test_meets_ReconstructionError : enc 1000 5 3 = .ok 63 ∧ dec 63 5 3 = .ok 991 := by decide
theorem test_meets_LutrdChecks : (5 : Param) ≠ (inst 20 []).lutK ∨ (2 : Param) ≠ (inst 20 []).lutM := by decide
theorem test_meets_LutrdReads : (inst 20 []).lutRead 17 = ⟨true, 18⟩ ∧ ((inst 20 []).lutRead 18).present = false := by decide +kernel
theorem test_meets_LutrdAgrees_complete : (inst 20 []).Inv ∧ valid (inst 20 []).lutK.toNat (inst 20 []).lutM.toNat ∧
    (inst 20 []).lookup 5 3 17 = .ok 18 ∧ high 17 3 < min 20 (overflowLimit 5 3) :=
  ⟨inst_inv (by decide) [], by decide +kernel, by decide +kernel, by decide +kernel⟩
theorem test_meets_LutrdAgrees_cut : (inst 19 []).Inv ∧ (inst 19 []).lookup 5 3 17 = .ok 18 ∧
    min 19 (overflowLimit 5 3) ≤ high 17 3 ∧ dec 240 5 3 = .fail .decRange :=
  ⟨inst_inv (by decide) [], by decide +kernel, by decide +kernel, by decide +kernel⟩
theorem test_meets_BuildlutInstalls_first : (4294967296 : Count).toNat ≤ 2 ^ 32 ∧ (inst 20 []).built = false ∧
    (inst 20 []).responses = [] := by decide
theorem test_meets_BuildlutInstalls_later : (building 1 1 []).built = true ∧ (served 20 []).built = false ∧
    (served 20 []).responses ≠ [] := by decide
theorem test_meets_ToolPrintsUsage : 2 ^ 32 < (4294967297 : Count).toNat ∧ 2 ^ 32 < (4294967297 : ArgWord).toNat % 2 ^ 33 ∧
    numeral? [] = none ∧ numeral? ['5', 'x'] = none := by decide
theorem test_meets_CommandLineTool : (inst 0 [.command (commandLine 255 255 4294967296), .word (.req 0x2FFFF00000000)]).tool = none ∧
    commandLine 255 255 4294967296 = [['2', '5', '5'], ['2', '5', '5'], ['4', '2', '9', '4', '9', '6', '7', '2', '9', '6']] ∧
    numeral? ['4', '2', '9', '4', '9', '6', '7', '2', '9', '6'] = some 4294967296 ∧ numeral? ['2', '5', '5'] = some 255 ∧
    (inst 0 []).built = false ∧ (inst 0 []).responses = [] ∧
    decode (.req 0x2FFFF00000000) = .instr (.lutrd 255 255 0) := by decide +kernel
theorem test_meets_OpenRun : 4294967296 ≤ 4294967296 ∧ 4294967296 ≤ 2 ^ 32 ∧
    (Tool.sweep 6 (Tool.start 2 1 16)).openRun = some ⟨4, 4⟩ := by decide +kernel
theorem test_meets_PairsAscend : 4294967296 ≤ 2 ^ 32 ∧ (builtPairs 2 0 10).length = 4 := by decide +kernel
theorem test_meets_TableHolds : 10 ≤ 2 ^ 32 ∧ (builtTable 2 0 10).read? (3 : Code).toNat = some 5 ∧
    ((3 : Code), (5 : Sample)) ∈ builtPairs 2 0 10 := by decide +kernel
theorem test_meets_EmptyBuilds : ¬ valid (9 : Param).toNat (0 : Param).toNat := by decide
theorem test_meets_TableClosedForm_cut : 2 ^ (3 + 1) ≤ (17 : Code).toNat ∧
    low 17 3 < min 19 (2 ^ max (2 ^ 5 - 1 + 3) (3 + 1)) ∧ min 19 (2 ^ max (2 ^ 5 - 1 + 3) (3 + 1)) ≤ high 17 3 ∧
    (builtTable 5 3 19).read? 18 = none ∧ (builtTable 5 3 19).read? 15 = some 15 := by decide +kernel
theorem test_meets_PairsAgree : (builtPairs 5 3 19)[17]? = some (17, 18) ∧ (builtPairs 5 3 19)[16]? = some (16, 16) := by decide +kernel
theorem test_meets_WholeBucket : 20 = high (17 : Code).toNat 3 + 1 ∧ (17, 18) ∈ builtPairs 5 3 20 ∧ (15, 15) ∈ builtPairs 5 3 (2 ^ 4) := by decide +kernel
theorem test_meets_NumberOfPairs : valid (2 : Param).toNat (0 : Param).toNat ∧ 2 ≤ (2 : Param).toNat ∧
    min (overflowLimit 2 0) (2 ^ 32) ≤ 8 := by decide
theorem test_meets_InBand : overflowLimit 2 0 < 10 ∧ overflowLimit 0 7 < 257 ∧
    (builtPairs 2 0 10).getLast?.map Prod.fst ≠ some 0xFF := by decide +kernel
theorem test_meets_BuildlutChangesOnly_first : (∃ t, exec (.buildlut 2 1 16) (inst 20 []) = .next t) ∧
    (inst 20 []).built = false ∧ (inst 20 []).responses = [] ∧ ∀ v, ((17 : Code), v) ∉ builtPairs 2 1 16 := by
  refine ⟨⟨_, rfl⟩, rfl, rfl, fun v h => ?_⟩
  have hp : (builtPairs 2 1 16).all (fun p => decide (p.1 ≠ 17)) = true := by decide +kernel
  exact absurd rfl (of_decide_eq_true (List.all_eq_true.1 hp _ h))
theorem test_meets_BuildlutChangesOnly_later : (∃ t, exec (.buildlut 2 1 16) (served 20 []) = .next t) ∧
    (served 20 []).responses ≠ [] ∧ 2 ^ 32 < (4294967297 : Count).toNat := ⟨⟨_, rfl⟩, by simp [served], by decide⟩
theorem test_meets_EveryStepKeeps_answered : (served 20 [.word (.argv 0)]).responses ≠ [] ∧
    ∃ s', step (served 20 [.word (.argv 0)]) = .next s' := ⟨by simp [served], _, rfl⟩
theorem test_meets_EveryStepKeeps_built : (building 1 0 [.command []]).built = true ∧
    ∃ s', step (building 1 0 [.command []]) = .next s' := ⟨rfl, _, rfl⟩

end Sys2Proof.Tests
end

/-! Proofs of the scope statements (spec/00_scope.md R8): a request is answered in one step by one response, which is a
function of the request and the table, and changes nothing else. The idea is to separate WHAT is answered (`Answer`, which a
request and the table determine) from the response that gives it (which may draw a free data word). -/

namespace Sys2Proof.Machine

/-! ## The decoder of requests, by its op field (R40, R41, R47) -/

theorem ReqWord.op_toNat (w : ReqWord) : (ReqWord.op w).toNat = w.toNat / 2 ^ 48 := by
  rw [ReqWord.op, BitVec.extractLsb'_toNat, Nat.shiftRight_eq_div_pow]
  exact Nat.mod_eq_of_lt (by omega)

/-- Everything a request word can decode to. -/
theorem decode_req_cases (w : ReqWord) :
    (w.toNat / 2 ^ 48 = 0 ∧ decode (.req w) = .instr (.enc (ReqWord.k w) (ReqWord.m w) (ReqWord.data w))) ∨
    (w.toNat / 2 ^ 48 = 1 ∧ ReqWord.reserved w = 0 ∧
      decode (.req w) = .instr (.dec (ReqWord.k w) (ReqWord.m w) (ReqWord.codeword w))) ∨
    (w.toNat / 2 ^ 48 = 2 ∧ ReqWord.reserved w = 0 ∧
      decode (.req w) = .instr (.lutrd (ReqWord.k w) (ReqWord.m w) (ReqWord.codeword w))) ∨
    ((w.toNat / 2 ^ 48 = 1 ∨ w.toNat / 2 ^ 48 = 2) ∧ ReqWord.reserved w ≠ 0 ∧
      decode (.req w) = .rejected .reservedBits) ∨
    (w.toNat / 2 ^ 48 = 3 ∧ decode (.req w) = .rejected .reservedOp) := by
  have hop : w.toNat / 2 ^ 48 = 0 ∨ w.toNat / 2 ^ 48 = 1 ∨ w.toNat / 2 ^ 48 = 2 ∨ w.toNat / 2 ^ 48 = 3 := by omega
  have hd : decode (.req w) = decodeRequest w := rfl
  simp only [hd, decodeRequest, ReqWord.op_toNat]
  obtain h | h | h | h := hop <;> simp only [h]
  · simp
  · by_cases hr : ReqWord.reserved w = 0#24 <;> simp [hr]
  · by_cases hr : ReqWord.reserved w = 0#24 <;> simp [hr]
  · simp

/-! ## Answers -/

/-- What a request is answered: a status with the data the spec fixes, or a failure whose data it leaves unspecified
(R42). -/
inductive Answer where
  | fixed (status : Status) (data : Sample)
  | free (why : Failure)

/-- The answer of an operation with a 32-bit result (R42, R84). -/
def Answer.ofResult : Result Sample → Answer
  | .ok v => .fixed .ok v
  | .fail why => .free why

/-- The status answered. -/
def Answer.status : Answer → Status
  | .fixed st _ => st
  | .free why => .failed why

/-- How many unspecified data words the answer takes. -/
def Answer.drawn : Answer → Nat
  | .fixed _ _ => 0
  | .free _ => 1

/-- The response that gives the answer when `n` unspecified data words were given before it. -/
def Answer.response (n : Nat) : Answer → Response
  | .fixed st d => ⟨st, d⟩
  | .free why => ⟨.failed why, Config.freeData n⟩

/-- The state that has given the answer. -/
def State.answer (s : State) : Answer → State
  | .fixed st d => s.reply st d
  | .free why => s.replyFailure why

/-- The answer to a decoded word; a call of the tool is answered with no response. -/
def State.answerTo (s : State) : Decoded → Option Answer
  | .instr (.enc K M v) =>
    some (.fixed (enc v.toNat K.toNat M.toNat).status ((bareCode (enc v.toNat K.toNat M.toNat)).setWidth 32))
  | .instr (.dec K M c) => some (.ofResult (dec c.toNat K.toNat M.toNat))
  | .instr (.lutrd K M c) => some (.ofResult (s.lookup K M c))
  | .instr (.buildlut _ _ _) => none
  | .rejected .reservedOp => some (.free .badRequest)
  | .rejected .reservedBits => some (.free .badRequest)
  | .rejected .maxValueRange => none

@[simp] theorem Answer.response_status (a : Answer) (n : Nat) : (a.response n).status = a.status := by cases a <;> rfl

/-- Fixed data does not depend on what was drawn before. -/
theorem Answer.response_eq_of_drawn {a : Answer} (h : a.drawn = 0) (m n : Nat) : a.response m = a.response n := by
  cases a with
  | fixed st d => rfl
  | free why => cases h

theorem Answer.drawn_eq_zero_of_ok {a : Answer} (h : a.status = .ok) : a.drawn = 0 := by
  cases a with
  | fixed st d => rfl
  | free why => cases h

/-- Where only successes have fixed data, an answer with fixed data is a success. -/
theorem Answer.ofResult_drawn (r : Result Sample) :
    (Answer.ofResult r).drawn = if (Answer.ofResult r).status = .ok then 0 else 1 := by
  cases r with
  | ok v => rfl
  | fail why => rfl

section answer
variable (s : State) (a : Answer)

@[simp] theorem State.answer_input : (s.answer a).input = s.input := by cases a <;> rfl
@[simp] theorem State.answer_responses : (s.answer a).responses = s.responses ++ [a.response s.draws] := by cases a <;> rfl
@[simp] theorem State.answer_lutK : (s.answer a).lutK = s.lutK := by cases a <;> rfl
@[simp] theorem State.answer_lutM : (s.answer a).lutM = s.lutM := by cases a <;> rfl
@[simp] theorem State.answer_lutMaxValue : (s.answer a).lutMaxValue = s.lutMaxValue := by cases a <;> rfl
@[simp] theorem State.answer_lut : (s.answer a).lut = s.lut := by cases a <;> rfl
@[simp] theorem State.answer_built : (s.answer a).built = s.built := by cases a <;> rfl
@[simp] theorem State.answer_tool : (s.answer a).tool = s.tool := by cases a <;> rfl
@[simp] theorem State.answer_printed : (s.answer a).printed = s.printed := by cases a <;> rfl
@[simp] theorem State.answer_draws : (s.answer a).draws = s.draws + a.drawn := by cases a <;> rfl

theorem State.replyResult_eq_answer (r : Result Sample) : s.replyResult r = s.answer (.ofResult r) := by cases r <;> rfl

end answer

/-! ## The model gives these answers -/

theorem exec_of_answerTo {s : State} {i : Instr} {a : Answer} (h : s.answerTo (.instr i) = some a) :
    exec i s = .next (s.answer a) := by
  cases i with
  | enc K M v => cases h; rfl
  | dec K M c => cases h; exact congrArg _ (s.replyResult_eq_answer _)
  | lutrd K M c => cases h; exact congrArg _ (s.replyResult_eq_answer _)
  | buildlut K M n => cases h

theorem reject_of_answerTo {s : State} {why : Reject} {a : Answer} (h : s.answerTo (.rejected why) = some a) :
    s.reject why = s.answer a := by
  cases why <;> cases h <;> rfl

/-- With no tool running, a step gives the oldest word its answer. -/
theorem step_of_answerTo {s : State} {w : InstrWord} {rest : List Input} {a : Answer} (ht : s.tool = none)
    (hin : s.input = .word w :: rest) (h : s.answerTo (decode w) = some a) :
    step s = .next (State.answer { s with input := rest } a) := by
  simp only [step, s.fetch_cons hin (s.waits_of_no_tool ht _)]
  cases hd : decode w with
  | instr i => exact exec_of_answerTo (s := { s with input := rest }) (hd ▸ h)
  | rejected why => exact congrArg _ (reject_of_answerTo (s := { s with input := rest }) (hd ▸ h))

/-- ENC, DEC and LUTRD are answered. -/
theorem exists_answerTo_instr (s : State) {i : Instr} (hi : ∀ K M n, i ≠ .buildlut K M n) :
    ∃ a, s.answerTo (.instr i) = some a := by
  cases i with
  | buildlut K M n => exact absurd rfl (hi K M n)
  | _ => exact ⟨_, rfl⟩

/-- Every request word is answered. -/
theorem exists_answerTo_req (s : State) (w : ReqWord) : ∃ a, s.answerTo (decode (.req w)) = some a := by
  obtain ⟨-, hd⟩ | ⟨-, -, hd⟩ | ⟨-, -, hd⟩ | ⟨-, -, hd⟩ | ⟨-, hd⟩ := decode_req_cases w <;>
    exact ⟨_, congrArg s.answerTo hd⟩

/-! ## What an answer depends on -/

/-- A lookup depends on the table, LUT_K and LUT_M alone (R101, R102). -/
theorem State.lookup_congr {s t : State} (hl : t.lut = s.lut) (hk : t.lutK = s.lutK) (hm : t.lutM = s.lutM)
    (K M : Param) (c : Code) : t.lookup K M c = s.lookup K M c := by
  obtain ⟨hne, h⟩ | ⟨hK, hM, hr, h⟩ | ⟨v, hK, hM, hr, h⟩ := s.lookup_cases K M c <;> rw [h]
  · rw [State.lookup, hk, hm, if_pos hne]
  · rw [State.lookup, hk, hm, if_neg (by simp [hK, hM]), t.lutRead_of_none (hl ▸ hr), absentEntry]
  · rw [State.lookup, hk, hm, if_neg (by simp [hK, hM]), t.lutRead_of_some (hl ▸ hr)]

/-- An answer depends on the decoded word and, for LUTRD, on the table, LUT_K and LUT_M (R8, R120). -/
theorem State.answerTo_congr {s t : State} {d : Decoded}
    (h : (∃ K M c, d = .instr (.lutrd K M c)) → t.lut = s.lut ∧ t.lutK = s.lutK ∧ t.lutM = s.lutM) :
    t.answerTo d = s.answerTo d := by
  cases d with
  | rejected why => cases why <;> rfl
  | instr i =>
    cases i with
    | lutrd K M c =>
      obtain ⟨hl, hk, hm⟩ := h ⟨K, M, c, rfl⟩
      simp only [State.answerTo, State.lookup_congr hl hk hm]
    | _ => rfl

/-- The data of an operation's answer is fixed exactly on OK and for ENC (R42). -/
theorem State.answerTo_drawn {s : State} {i : Instr} {a : Answer} (h : s.answerTo (.instr i) = some a) :
    (a.status = .ok ∨ (∃ K M v, i = .enc K M v) → a.drawn = 0) ∧
    (¬ (a.status = .ok ∨ ∃ K M v, i = .enc K M v) → a.drawn = 1) := by
  cases i with
  | enc K M v => cases h; exact ⟨fun _ => rfl, fun hne => absurd (.inr ⟨K, M, v, rfl⟩) hne⟩
  | dec K M c => cases h; simp [Answer.ofResult_drawn]
  | lutrd K M c => cases h; simp [Answer.ofResult_drawn]
  | buildlut K M n => cases h

/-- A request with `op = 0` is an ENC, and its data is fixed. -/
theorem State.answerTo_req_drawn {s : State} {w : ReqWord} {a : Answer} (h : s.answerTo (decode (.req w)) = some a)
    (hop : w.toNat / 2 ^ 48 = 0) : a.drawn = 0 := by
  obtain ⟨-, hd⟩ | hother := decode_req_cases w
  · rw [hd] at h
    cases h
    rfl
  · omega

/-! ## A sequence of requests -/

/-- `r` gives the answer the request `w` has from the table of `s`, whatever was drawn before. -/
def State.Gives (s : State) (w : ReqWord) (r : Response) : Prop :=
  ∃ a n, s.answerTo (decode (.req w)) = some a ∧ r = a.response n

/-- Serving requests takes one step each, and each is answered from the table of `s`, which no answer changes
(R8, R34). -/
theorem run_requests (s : State) (ws : List ReqWord) (t : State) (ht : t.tool = none)
    (hin : t.input = ws.map (fun w => .word (.req w)))
    (htab : t.lut = s.lut ∧ t.lutK = s.lutK ∧ t.lutM = s.lutM) :
    ∃ (t' : State) (rs : List Response), Host.Core.run core ws.length t = .next t' ∧ t'.input = [] ∧
      t'.responses = t.responses ++ rs ∧ List.Forall₂ s.Gives ws rs := by
  induction ws generalizing t with
  | nil => exact ⟨t, [], rfl, hin, by simp, .nil⟩
  | cons w ws ih =>
    obtain ⟨a, ha⟩ := exists_answerTo_req s w
    have hstep := step_of_answerTo ht hin ((State.answerTo_congr fun _ => htab).trans ha)
    obtain ⟨t', rs, hrun, hin', hresp, hgives⟩ :=
      ih (State.answer { t with input := ws.map (fun w => .word (.req w)) } a) (by simpa using ht) (by simp)
        (by simpa using htab)
    refine ⟨t', a.response t.draws :: rs, ?_, hin', by simpa using hresp, .cons ⟨a, t.draws, ha, rfl⟩ hgives⟩
    rw [List.length_cons, run_succ hstep, hrun]

/-! ## The obligations -/

/-- Settles O22: the state after is the state that has given the answer, field by field. -/
theorem requestsChangeOnlyTheResponses : Obligations.RequestsChangeOnlyTheResponses := by
  intro i s t hi ht
  obtain ⟨a, ha⟩ := exists_answerTo_instr s hi
  obtain rfl : s.answer a = t := by simpa [exec_of_answerTo ha] using ht
  obtain ⟨hfixed, hfree⟩ := State.answerTo_drawn ha
  refine ⟨s.answer_input a, s.answer_lutK a, s.answer_lutM a, s.answer_lutMaxValue a, s.answer_lut a, s.answer_built a,
    s.answer_tool a, s.answer_printed a,
    State.lutRead_congr (s.answer_lut a) (s.answer_lutK a) (s.answer_lutM a) (s.answer_lutMaxValue a),
    a.response s.draws, s.answer_responses a, fun h => ?_, fun h => ?_⟩
  · rw [State.answer_draws, hfixed (by simpa using h), Nat.add_zero]
  · rw [State.answer_draws, hfree (by simpa using h)]

/-- Settles O21: both states give the same answer, whose data is drawn only where the spec leaves it unspecified. -/
theorem answersAreAFunctionOfRequestAndTable : Obligations.AnswersAreAFunctionOfRequestAndTable := by
  intro i s₁ s₂ t₁ t₂ hi htab h₁ h₂
  obtain ⟨a, ha₁⟩ := exists_answerTo_instr s₁ hi
  have ha₂ : s₂.answerTo (.instr i) = some a := by
    refine (State.answerTo_congr fun ⟨K, M, c, hd⟩ => ?_).symm.trans ha₁
    exact htab ⟨K, M, c, Decoded.instr.inj hd⟩
  obtain rfl : s₁.answer a = t₁ := by simpa [exec_of_answerTo ha₁] using h₁
  obtain rfl : s₂.answer a = t₂ := by simpa [exec_of_answerTo ha₂] using h₂
  refine ⟨a.response s₁.draws, a.response s₂.draws, s₁.answer_responses a, s₂.answer_responses a, by simp, fun h => ?_⟩
  have hdrawn : a.drawn = 0 := (State.answerTo_drawn ha₁).1 (by simpa using h)
  rw [Answer.response_eq_of_drawn hdrawn]

/-- Settles O20: by induction on the requests, each is given the answer it has in the start state; the data agree where
the answer draws none. -/
theorem answersDependOnNoEarlierRequest : Obligations.AnswersDependOnNoEarlierRequest := by
  intro s ws ht hin
  obtain ⟨s', rs, hrun, hin', hresp, hgives⟩ := run_requests s ws s ht hin ⟨rfl, rfl, rfl⟩
  refine ⟨s', rs, hrun, hin', hresp, hgives.length_eq.symm, fun j w r hw hr => ?_⟩
  obtain ⟨a, n, ha, rfl⟩ : s.Gives w r := by
    obtain ⟨hjw, rfl⟩ := List.getElem?_eq_some_iff.1 hw
    obtain ⟨hjr, rfl⟩ := List.getElem?_eq_some_iff.1 hr
    exact hgives.get hjw hjr
  have hstep : step { s with input := [.word (.req w)] } = .next (State.answer { s with input := [] } a) :=
    step_of_answerTo ht rfl ((State.answerTo_congr fun _ => ⟨rfl, rfl, rfl⟩).trans ha)
  refine ⟨_, a.response s.draws, hstep, by simp, by simp, fun h => ?_⟩
  have hdrawn : a.drawn = 0 := by
    obtain hok | hop := h
    · exact Answer.drawn_eq_zero_of_ok (by simpa using hok)
    · exact State.answerTo_req_drawn ha hop
  rw [Answer.response_eq_of_drawn hdrawn]

end Sys2Proof.Machine

/-! Proofs of the state statements (spec/10_state.md R14 to R16): which parameter pairs are valid, and that no step changes the
table or the parameters of an instance once they are fixed. The idea of the second is a relation between the state before and
the state after (`State.Keeps`) that every operation the machine is made of meets, a build only on a fixed instance. -/

namespace Sys2Proof.Machine

/-! ## The valid pairs (R14) -/

/-- The list V-P1, row by row: the pairs of 0..7 whose exact sum is at most 8. -/
def validPairs : List (Nat × Nat) := ((List.range 8).product (List.range 8)).filter fun p => p.1 + p.2 ≤ 8

theorem mem_validPairs {K M : Nat} : (K, M) ∈ validPairs ↔ valid K M := by
  rw [validPairs, List.mem_filter, List.pair_mem_product, List.mem_range, List.mem_range, decide_eq_true_iff]
  omega

/-! ## What one operation leaves to the next: the instance, and the responses given -/

/-- `s'` has the table, the parameters and the built flag of `s`, and at least its responses (R15, R16, R29). -/
structure State.Keeps (s s' : State) : Prop where
  responses : s.responses <+: s'.responses
  built : s'.built = s.built
  lutK : s'.lutK = s.lutK
  lutM : s'.lutM = s.lutM
  lutMaxValue : s'.lutMaxValue = s.lutMaxValue
  lut : s'.lut = s.lut

namespace State.Keeps

variable {s s' s'' : State}

protected theorem refl (s : State) : s.Keeps s := ⟨List.prefix_rfl, rfl, rfl, rfl, rfl, rfl⟩

protected theorem trans (h : s.Keeps s') (h' : s'.Keeps s'') : s.Keeps s'' where
  responses := h.responses.trans h'.responses
  built := h'.built.trans h.built
  lutK := h'.lutK.trans h.lutK
  lutM := h'.lutM.trans h.lutM
  lutMaxValue := h'.lutMaxValue.trans h.lutMaxValue
  lut := h'.lut.trans h.lut

/-- A fixed instance stays fixed. -/
theorem isFixed (h : s.Keeps s') (hs : s.isFixed = true) : s'.isFixed = true := by
  obtain hb | hr := s.isFixed_iff.1 hs
  · exact s'.isFixed_iff.2 (.inl (h.built.trans hb))
  · exact s'.isFixed_iff.2 (.inr fun hnil => hr (List.prefix_nil.1 (hnil ▸ h.responses)))

end State.Keeps

section operations
variable (s : State)

/-- What is presented is no part of the instance. -/
theorem State.keeps_input (rest : List Input) : s.Keeps { s with input := rest } :=
  ⟨List.prefix_rfl, rfl, rfl, rfl, rfl, rfl⟩

/-- The tool's working state is no part of the instance (R17). -/
theorem State.keeps_tool (t : Option Tool) : s.Keeps { s with tool := t } :=
  ⟨List.prefix_rfl, rfl, rfl, rfl, rfl, rfl⟩

theorem State.keeps_print (p : Printout) : s.Keeps (s.print p) := ⟨List.prefix_rfl, rfl, rfl, rfl, rfl, rfl⟩

theorem State.keeps_answer (a : Answer) : s.Keeps (s.answer a) := by
  constructor <;> simp

theorem State.keeps_moveTool : s.Keeps s.moveTool := by
  obtain ⟨-, h⟩ | ⟨t, -, -, h⟩ | ⟨t, -, -, h⟩ := s.moveTool_cases <;> rw [h]
  · exact .refl s
  · exact s.keeps_tool _
  · exact (s.keeps_print _).trans (State.keeps_tool _ _)

theorem State.keeps_reject (why : Reject) : s.Keeps (s.reject why) := by
  cases why with
  | maxValueRange => exact s.keeps_print .usage
  | reservedOp => exact s.keeps_answer (.free .badRequest)
  | reservedBits => exact s.keeps_answer (.free .badRequest)

end operations

/-! ## Where a build may begin, the instance must be fixed -/

/-- A further build is the build of another instance (R29, R36). -/
theorem State.keeps_beginBuild {s : State} (h : s.isFixed = true) (K M : Param) (n : Nat) :
    s.Keeps (s.beginBuild K M n) := by
  rw [s.beginBuild_of_fixed K M n h]
  exact .refl s

theorem State.keeps_startCommand {s : State} (h : s.isFixed = true) (args : List Text) :
    s.Keeps (s.startCommand args) := by
  obtain ⟨K, M, n, -, hs⟩ | ⟨-, hs⟩ := s.startCommand_cases args <;> rw [hs]
  · exact (State.keeps_beginBuild h K M n).trans (State.keeps_tool _ _)
  · exact s.keeps_print .usage

theorem execBuildlut_keeps {s s' : State} {K M : Param} {n : Count} (h : s.isFixed = true)
    (he : execBuildlut K M n s = .next s') : s.Keeps s' := by
  unfold execBuildlut at he
  split at he <;> cases he
  · exact (State.keeps_beginBuild h K M n.toNat).trans (State.keeps_print _ _)
  · exact s.keeps_print .usage

theorem exec_keeps {s s' : State} {i : Instr} (h : s.isFixed = true) (he : exec i s = .next s') : s.Keeps s' := by
  by_cases hi : ∃ K M n, i = .buildlut K M n
  · obtain ⟨K, M, n, rfl⟩ := hi
    exact execBuildlut_keeps h he
  · obtain ⟨a, ha⟩ := exists_answerTo_instr s fun K M n hbuild => hi ⟨K, M, n, hbuild⟩
    obtain rfl : s.answer a = s' := by simpa [exec_of_answerTo ha] using he
    exact s.keeps_answer a

/-- No step changes a fixed instance, whatever it takes (R15, R29, R36). -/
theorem step_keeps {s s' : State} (h : s.isFixed = true) (hs : step s = .next s') : s.Keeps s' := by
  have hfixed (rest : List Input) : State.isFixed { s with input := rest } = true := (s.keeps_input rest).isFixed h
  obtain ⟨-, hc⟩ | ⟨args, rest, -, -, hc⟩ | ⟨rest, -, hc⟩ | ⟨w, i, rest, -, -, -, hc⟩ | ⟨w, why, rest, -, -, -, hc⟩ :=
    step_cases s <;> rw [hc] at hs
  · cases hs
    exact s.keeps_moveTool
  · cases hs
    exact (s.keeps_input rest).trans (State.keeps_startCommand (hfixed rest) args)
  · cases hs
    exact s.keeps_input rest
  · exact (s.keeps_input rest).trans (exec_keeps (hfixed rest) hs)
  · cases hs
    exact (s.keeps_input rest).trans (State.keeps_reject _ why)

/-! ## The obligations -/

/-- Settles O9: the list is that of the pairs of 0..7 with sum at most 8, in order. -/
theorem validPairsAreTheListed43 : Obligations.ValidPairsAreTheListed43 := by
  intro K M
  exact ⟨Iff.rfl, mem_validPairs.symm⟩

/-- Settles O60: a step keeps a fixed instance, and an entry read depends on the table and its parameters alone. -/
theorem everyStepKeepsAFixedInstance : Obligations.EveryStepKeepsAFixedInstance := by
  intro s s' hfixed hstep
  have hs : s.isFixed = true := s.isFixed_iff.2 hfixed
  have hkeeps : s.Keeps s' := step_keeps hs hstep
  have hfixed' : s'.built = true ∨ s'.responses ≠ [] := s'.isFixed_iff.1 (hkeeps.isFixed hs)
  obtain ⟨⟨more, hmore⟩, hb, hK, hM, hn, hlut⟩ := hkeeps
  exact ⟨hfixed', fun h => hb.trans h, ⟨more, hmore.symm⟩, hK, hM, hn, hlut, State.lutRead_congr hlut hK hM hn⟩

end Sys2Proof.Machine

/-! Proofs of the memory statements (spec/20_memory.md R26, R29, R35): the table in use is at every moment the finished build
of its parameters. The idea is that the invariant speaks of two things apart: the instance, which every operation but the
first build keeps (`State.Keeps`), and the tool, which only a command line and the tool's own move change. -/

namespace Sys2Proof.Machine

/-! ## The tool along its sweep (R11, R17) -/

theorem Tool.start_inv (K M : Param) {n : Nat} (hn : n ≤ Config.maxSweep) : (Tool.start K M n).Inv where
  accepted := hn
  index := Nat.zero_le n
  swept := rfl

/-- One sample more and the tool is still where its index says. -/
theorem Tool.Inv.sample {t : Tool} (h : t.Inv) (hi : t.i < t.maxValue) : t.sample.Inv where
  accepted := by simpa using h.accepted
  index := by simpa using hi
  swept := by
    rw [Tool.sample_i, Tool.sample_k, Tool.sample_m, Tool.sample_maxValue, Tool.sweep_succ]
    exact congrArg Tool.sample h.swept

/-- At the end of its sweep the tool finishes as the whole build does (R90, R94). -/
theorem Tool.Inv.finish_eq_buildRun {t : Tool} (h : t.Inv) (hi : t.i = t.maxValue) :
    t.finish = buildRun t.k t.m t.maxValue := by
  have hswept : t = Tool.sweep t.maxValue (Tool.start t.k t.m t.maxValue) := hi ▸ h.swept
  exact congrArg Tool.finish hswept

/-! ## What the move of the tool does to the state -/

section moveTool
variable {s : State} {t : Tool}

/-- Before the end of the sweep the tool takes one sample (R91). -/
theorem State.moveTool_of_lt (ht : s.tool = some t) (hi : t.i < t.maxValue) :
    s.moveTool = { s with tool := some t.sample } := by
  simp only [State.moveTool, ht, State.advanceTool, if_pos hi]

/-- At the end of the sweep it prints its pairs and is gone (R94, R103 (b)). -/
theorem State.moveTool_of_eq (ht : s.tool = some t) (hi : t.i = t.maxValue) :
    s.moveTool = { s.printPairs t.finish.emitted with tool := none } := by
  simp only [State.moveTool, ht, State.advanceTool, if_neg (Nat.not_lt.2 hi.ge)]

variable (s)

/-- It takes no input and gives no response. -/
theorem State.moveTool_ports :
    s.moveTool.input = s.input ∧ s.moveTool.responses = s.responses ∧ s.moveTool.draws = s.draws := by
  obtain ⟨-, h⟩ | ⟨t, -, -, h⟩ | ⟨t, -, -, h⟩ := s.moveTool_cases <;> rw [h] <;> exact ⟨rfl, rfl, rfl⟩

end moveTool

/-! ## What waits for a running tool (R163) -/

/-- The tuple of an accepted call of the tool (R41, R98). -/
theorem decode_argv_of_le {a : ArgWord} (h : (ArgWord.maxValue a).toNat ≤ Config.maxSweep) :
    decode (.argv a) = .instr (.buildlut (ArgWord.k a) (ArgWord.m a) (ArgWord.maxValue a)) := if_pos h

/-- The tuple of a call of the tool that R103 (a) turns away. -/
theorem decode_argv_of_not_le {a : ArgWord} (h : ¬ (ArgWord.maxValue a).toNat ≤ Config.maxSweep) :
    decode (.argv a) = .rejected .maxValueRange := if_neg h

section waits
variable {s : State} {t : Tool}

/-- A further call of the tool waits, whatever its arguments are. -/
theorem State.waits_argv (ht : s.tool = some t) (a : ArgWord) : s.waits (.word (.argv a)) = true := by
  by_cases ha : (ArgWord.maxValue a).toNat ≤ Config.maxSweep
  · exact s.waits_instr ht (decode_argv_of_le ha)
  · exact s.waits_rejected ht (decode_argv_of_not_le ha)

/-- A LUTRD waits for the instance's own build. -/
theorem State.waits_lutrd {w : InstrWord} {K M : Param} {c : Code} (ht : s.tool = some t)
    (hd : decode w = .instr (.lutrd K M c)) (hown : t.k = s.lutK ∧ t.m = s.lutM ∧ t.maxValue = s.lutMaxValue) :
    s.waits (.word w) = true :=
  (s.waits_instr ht hd).trans ((s.buildsInstance_iff t).2 hown)

/-- Where nothing is presented or the oldest input waits, the tool moves. -/
theorem step_of_head_waits (h : ∀ x, s.input.head? = some x → s.waits x = true) : step s = .next s.moveTool := by
  apply step_of_fetch_none
  cases hin : s.input with
  | nil => exact s.fetch_nil hin
  | cons x rest => exact s.fetch_waits hin (h x (by rw [hin, List.head?_cons]))

end waits

/-! ## The invariant, operation by operation -/

namespace State.Inv

variable {s s' : State}

/-- Where the instance is kept, the invariant asks only for the tool. -/
theorem of_keeps (h : s.Inv) (hk : s.Keeps s') (ht : ∀ t, s'.tool = some t → t.Inv ∧ s.isFixed = true) : s'.Inv where
  accepted := hk.lutMaxValue ▸ h.accepted
  finished := by rw [hk.lut, hk.lutK, hk.lutM, hk.lutMaxValue, h.finished]
  canonical := hk.lut ▸ h.canonical
  running t hs := (ht t hs).1
  settled hne := by
    obtain ⟨t, hs⟩ := Option.ne_none_iff_exists'.1 hne
    exact hk.isFixed (ht t hs).2

/-- An operation that keeps the instance and leaves the tool alone keeps the invariant. -/
theorem of_keeps_of_tool_eq (h : s.Inv) (hk : s.Keeps s') (ht : s'.tool = s.tool) : s'.Inv :=
  h.of_keeps hk fun t hs => by
    rw [ht] at hs
    exact ⟨h.running t hs, h.settled (by simp [hs])⟩

theorem withInput (h : s.Inv) (rest : List Input) : State.Inv { s with input := rest } :=
  h.of_keeps_of_tool_eq (s.keeps_input rest) rfl

theorem print (h : s.Inv) (p : Printout) : (s.print p).Inv := h.of_keeps_of_tool_eq (s.keeps_print p) rfl

theorem answer (h : s.Inv) (a : Answer) : (s.answer a).Inv := h.of_keeps_of_tool_eq (s.keeps_answer a) (s.answer_tool a)

theorem reject (h : s.Inv) (why : Reject) : (s.reject why).Inv :=
  h.of_keeps_of_tool_eq (s.keeps_reject why) (by cases why <;> rfl)

/-- The begin of a build leaves a finished table in use: the instance's own is defined as finished (R35). -/
theorem beginBuild (h : s.Inv) (K M : Param) {n : Nat} (hn : n ≤ Config.maxSweep) : (s.beginBuild K M n).Inv := by
  cases hf : s.isFixed with
  | true =>
    rw [s.beginBuild_of_fixed K M n hf]
    exact h
  | false =>
    have hfixed := s.beginBuild_isFixed K M n
    rw [s.beginBuild_of_not_fixed K M n hf] at hfixed ⊢
    exact ⟨hn, rfl, builtTable_wf K M n, h.running, fun _ => hfixed⟩

theorem startCommand (h : s.Inv) (args : List Text) : (s.startCommand args).Inv := by
  obtain ⟨K, M, n, hargs, hs⟩ | ⟨-, hs⟩ := s.startCommand_cases args <;> rw [hs]
  · have hn : n ≤ Config.maxSweep := parseArgs_maxValue hargs
    refine (h.beginBuild K M hn).of_keeps (State.keeps_tool _ _) fun t ht => ?_
    obtain rfl : Tool.start K M n = t := Option.some.inj ht
    exact ⟨Tool.start_inv K M hn, s.beginBuild_isFixed K M n⟩
  · exact h.print .usage

theorem moveTool (h : s.Inv) : s.moveTool.Inv := by
  refine h.of_keeps s.keeps_moveTool fun u hu => ?_
  obtain ⟨hnone, hm⟩ | ⟨t, ht, hi, hm⟩ | ⟨t, -, -, hm⟩ := s.moveTool_cases <;> rw [hm] at hu
  · simp [hnone] at hu
  · obtain rfl : t.sample = u := Option.some.inj hu
    exact ⟨(h.running t ht).sample hi, h.settled (by simp [ht])⟩
  · cases hu

theorem execBuildlut {K M : Param} {n : Count} (h : s.Inv) (he : execBuildlut K M n s = .next s') : s'.Inv := by
  unfold Machine.execBuildlut at he
  split at he <;> cases he
  · next hn => exact (h.beginBuild K M hn).print _
  · exact h.print .usage

theorem exec {i : Instr} (h : s.Inv) (he : exec i s = .next s') : s'.Inv := by
  by_cases hi : ∃ K M n, i = .buildlut K M n
  · obtain ⟨K, M, n, rfl⟩ := hi
    exact h.execBuildlut he
  · obtain ⟨a, ha⟩ := exists_answerTo_instr s fun K M n hbuild => hi ⟨K, M, n, hbuild⟩
    obtain rfl : s.answer a = s' := by simpa [exec_of_answerTo ha] using he
    exact h.answer a

theorem step (h : s.Inv) (hs : step s = .next s') : s'.Inv := by
  obtain ⟨-, hc⟩ | ⟨args, rest, -, -, hc⟩ | ⟨rest, -, hc⟩ | ⟨w, i, rest, -, -, -, hc⟩ | ⟨w, why, rest, -, -, -, hc⟩ :=
    step_cases s <;> rw [hc] at hs
  · cases hs
    exact h.moveTool
  · cases hs
    exact (h.withInput rest).startCommand args
  · cases hs
    exact h.withInput rest
  · exact (h.withInput rest).exec hs
  · cases hs
    exact (h.withInput rest).reject why

end State.Inv

/-! ## A run of a fixed instance -/

/-- A run of n + 1 steps that goes on is a step that goes on and a run of n. -/
theorem exists_step_of_run_succ {s s' : State} {n : Nat} (h : Host.Core.run core (n + 1) s = .next s') :
    ∃ t, step s = .next t ∧ Host.Core.run core n t = .next s' := by
  cases hs : step s with
  | next t => exact ⟨t, rfl, (run_succ hs n).symm.trans h⟩
  | fault r => cases r
  | refused r =>
    have hs' : core.step s = .refused r := hs
    simp [Host.Core.run, hs'] at h

/-- No run changes a fixed instance, whatever it takes (R29). -/
theorem run_keeps {n : Nat} {s s' : State} (h : s.isFixed = true) (hrun : Host.Core.run core n s = .next s') :
    s.Keeps s' := by
  induction n generalizing s with
  | zero =>
    cases hrun
    exact .refl _
  | succ n ih =>
    obtain ⟨t, hstep, hrest⟩ := exists_step_of_run_succ hrun
    have hk : s.Keeps t := step_keeps h hstep
    exact hk.trans (ih (hk.isFixed h) hrest)

/-- An entry reads present exactly where the table lists it (R26, R27). -/
theorem State.lutRead_present (s : State) (c : Code) : (s.lutRead c).present = (s.lut.read? c.toNat).isSome := by
  cases h : s.lut.read? c.toNat with
  | none => rw [s.lutRead_of_none h]; rfl
  | some v => rw [s.lutRead_of_some h]; rfl

/-! ## The obligations -/

/-- Settles O7: the word is the present bit put above the 32 bits of the value. -/
theorem lutEntryWordHoldsPresentAndValue : Obligations.LutEntryWordHoldsPresentAndValue := by
  intro e
  constructor
  · rw [LutEntry.word, BitVec.getLsbD_append]
    simp
  · exact BitVec.extractLsb'_append_eq_right

/-- Settles O15: nothing is taken, so the tool moves; at the end of its sweep the tool finishes as the whole build does,
and the table in use is that build's. -/
theorem noPartlyBuiltTableIsServed : Obligations.NoPartlyBuiltTableIsServed := by
  intro s t hinv ht hwait
  have htool : t.Inv := hinv.running t ht
  have hstep : step s = .next s.moveTool := step_of_head_waits fun x hx => by
    obtain ⟨args, rfl⟩ | ⟨a, rfl⟩ | ⟨w, K, M, c, rfl, hd, hown⟩ := hwait x hx
    · exact s.waits_command ht args
    · exact State.waits_argv ht a
    · exact State.waits_lutrd ht hd hown
  obtain ⟨hin, hresp, hdraws⟩ := s.moveTool_ports
  obtain ⟨-, hb, hK, hM, hn, hlut⟩ := s.keeps_moveTool
  refine ⟨s.moveTool, hstep, hin, hresp, hdraws, hlut, hK, hM, hn, hb, fun hi => ?_, fun hi => ?_⟩
  · rw [State.moveTool_of_lt ht hi]
    exact ⟨rfl, t.sample, rfl, t.sample_i, htool.sample hi⟩
  · have hfinish : t.finish = buildRun t.k t.m t.maxValue := htool.finish_eq_buildRun hi
    rw [State.moveTool_of_eq ht hi, hfinish]
    refine ⟨rfl, rfl, fun hk hm hmax => ?_⟩
    rw [hinv.finished, hk, hm, hmax]
    rfl

/-- Settles O16: by the cases of a step; the first build alone replaces the instance, with a finished table. -/
theorem stepKeepsInvariant : Obligations.StepKeepsInvariant := by
  intro s s' hinv hstep
  exact hinv.step hstep

/-- Settles O19: by induction on the steps a fixed instance is kept, and what is read depends on the instance alone, whose
table is the finished build. -/
theorem tableIsConstantWhileServing : Obligations.TableIsConstantWhileServing := by
  intro n s s' hinv hfixed hrun
  obtain ⟨-, -, hK, hM, hn, hlut⟩ := run_keeps (s.isFixed_iff.2 hfixed) hrun
  have hbuilt : s'.lut = builtTable s.lutK s.lutM s.lutMaxValue := hlut.trans hinv.finished
  refine ⟨hlut, hK, hM, hn, State.lookup_congr hlut hK hM, fun c => ?_⟩
  rw [← hbuilt]
  exact ⟨State.lutRead_congr hlut hK hM hn c, s'.lutRead_present c, fun v hv => s'.lutRead_of_some hv⟩

end Sys2Proof.Machine

/-! Proofs of the encoding statements (spec/30_encoding.md R40 to R54, and the step that runs a decoded word). The idea of the
decode layer is that a word IS the row of its fields, in both directions: the fields of a row are the operands, and the row
of a word's fields is the word. The idea of the printed text is that a reader stops at the first character that is no
digit. -/

namespace Sys2Proof.Machine

/-! ## The fields of a word (R40, R41, R46) -/

section fields
variable (op : BitVec 2) (K M : Param) (d : Sample) (c : Code) (n : Count)

@[simp] theorem ReqWord.op_requestWord : ReqWord.op (requestWord op K M d) = op := by
  have h : (op ++ K ++ M ++ d).extractLsb' 48 2 = (op ++ K ++ M).extractLsb' 16 2 :=
    BitVec.extractLsb'_append_eq_of_le (by decide)
  have h' : (op ++ K ++ M).extractLsb' 16 2 = (op ++ K).extractLsb' 8 2 :=
    BitVec.extractLsb'_append_eq_of_le (by decide)
  exact (h.trans h').trans BitVec.extractLsb'_append_eq_left

@[simp] theorem ReqWord.k_requestWord : ReqWord.k (requestWord op K M d) = K := by
  have h : (op ++ K ++ M ++ d).extractLsb' 40 8 = (op ++ K ++ M).extractLsb' 8 8 :=
    BitVec.extractLsb'_append_eq_of_le (by decide)
  have h' : (op ++ K ++ M).extractLsb' 8 8 = (op ++ K).extractLsb' 0 8 :=
    BitVec.extractLsb'_append_eq_of_le (by decide)
  exact (h.trans h').trans BitVec.extractLsb'_append_eq_right

@[simp] theorem ReqWord.m_requestWord : ReqWord.m (requestWord op K M d) = M := by
  have h : (op ++ K ++ M ++ d).extractLsb' 32 8 = (op ++ K ++ M).extractLsb' 0 8 :=
    BitVec.extractLsb'_append_eq_of_le (by decide)
  exact h.trans BitVec.extractLsb'_append_eq_right

@[simp] theorem ReqWord.data_requestWord : ReqWord.data (requestWord op K M d) = d :=
  BitVec.extractLsb'_append_eq_right

@[simp] theorem ReqWord.codeword_requestWord : ReqWord.codeword (requestWord op K M (codeOperand c)) = c := by
  have h : (op ++ K ++ M ++ codeOperand c).extractLsb' 0 8 = (codeOperand c).extractLsb' 0 8 :=
    BitVec.extractLsb'_append_eq_of_add_le (by decide)
  exact h.trans BitVec.extractLsb'_append_eq_right

@[simp] theorem ReqWord.reserved_requestWord : ReqWord.reserved (requestWord op K M (codeOperand c)) = 0 := by
  have h : (op ++ K ++ M ++ codeOperand c).extractLsb' 8 24 = (codeOperand c).extractLsb' 8 24 :=
    BitVec.extractLsb'_append_eq_of_add_le (by decide)
  exact h.trans BitVec.extractLsb'_append_eq_left

@[simp] theorem ArgWord.k_append : ArgWord.k (K ++ M ++ n) = K := by
  have h : (K ++ M ++ n).extractLsb' 41 8 = (K ++ M).extractLsb' 8 8 :=
    BitVec.extractLsb'_append_eq_of_le (by decide)
  exact h.trans BitVec.extractLsb'_append_eq_left

@[simp] theorem ArgWord.m_append : ArgWord.m (K ++ M ++ n) = M := by
  have h : (K ++ M ++ n).extractLsb' 33 8 = (K ++ M).extractLsb' 0 8 :=
    BitVec.extractLsb'_append_eq_of_le (by decide)
  exact h.trans BitVec.extractLsb'_append_eq_right

@[simp] theorem ArgWord.maxValue_append : ArgWord.maxValue (K ++ M ++ n) = n := BitVec.extractLsb'_append_eq_right

end fields

/-- A request word is the row of its fields. -/
theorem requestWord_fields (w : ReqWord) :
    requestWord (ReqWord.op w) (ReqWord.k w) (ReqWord.m w) (ReqWord.data w) = w := by
  have h₁ : ReqWord.op w ++ ReqWord.k w = w.extractLsb' 40 10 :=
    BitVec.extractLsb'_append_extractLsb'_eq_extractLsb' (by decide)
  have h₂ : w.extractLsb' 40 10 ++ ReqWord.m w = w.extractLsb' 32 18 :=
    BitVec.extractLsb'_append_extractLsb'_eq_extractLsb' (by decide)
  have h₃ : w.extractLsb' 32 18 ++ ReqWord.data w = w.extractLsb' 0 50 :=
    BitVec.extractLsb'_append_extractLsb'_eq_extractLsb' (by decide)
  rw [requestWord, h₁, h₂, h₃]
  exact BitVec.extractLsb'_eq_self

/-- The data field is the reserved bits above the codeword. -/
theorem ReqWord.data_eq_append (w : ReqWord) : ReqWord.data w = ReqWord.reserved w ++ ReqWord.codeword w := by
  have h : ReqWord.reserved w ++ ReqWord.codeword w = w.extractLsb' 0 32 :=
    BitVec.extractLsb'_append_extractLsb'_eq_extractLsb' (by decide)
  exact h.symm

/-- Without reserved bits the data field is the operand of a codeword. -/
theorem ReqWord.data_of_reserved {w : ReqWord} (h : ReqWord.reserved w = 0) :
    ReqWord.data w = codeOperand (ReqWord.codeword w) := by
  rw [ReqWord.data_eq_append, h, codeOperand]

/-- An argument tuple is the row of its fields. -/
theorem argWord_fields (a : ArgWord) : ArgWord.k a ++ ArgWord.m a ++ ArgWord.maxValue a = a := by
  have h₁ : ArgWord.k a ++ ArgWord.m a = a.extractLsb' 33 16 :=
    BitVec.extractLsb'_append_extractLsb'_eq_extractLsb' (by decide)
  have h₂ : a.extractLsb' 33 16 ++ ArgWord.maxValue a = a.extractLsb' 0 49 :=
    BitVec.extractLsb'_append_extractLsb'_eq_extractLsb' (by decide)
  rw [h₁, h₂]
  exact BitVec.extractLsb'_eq_self

/-! ## The fields as numbers -/

theorem extractLsb'_eq_ofNat_div {w : Nat} (x : BitVec w) (start len : Nat) :
    x.extractLsb' start len = BitVec.ofNat len (x.toNat / 2 ^ start) := by
  rw [← Nat.shiftRight_eq_div_pow]
  rfl

/-- The operands of a request, as R40 and R46 place them. -/
theorem ReqWord.fields_eq_ofNat (w : ReqWord) :
    ReqWord.k w = BitVec.ofNat 8 (w.toNat / 2 ^ 40) ∧ ReqWord.m w = BitVec.ofNat 8 (w.toNat / 2 ^ 32) ∧
    ReqWord.data w = BitVec.ofNat 32 w.toNat ∧ ReqWord.codeword w = BitVec.ofNat 8 w.toNat :=
  ⟨extractLsb'_eq_ofNat_div w 40 8, extractLsb'_eq_ofNat_div w 32 8, rfl, rfl⟩

/-- The arguments of a tuple, as R41 places them. -/
theorem ArgWord.fields_eq_ofNat (a : ArgWord) :
    ArgWord.k a = BitVec.ofNat 8 (a.toNat / 2 ^ 41) ∧ ArgWord.m a = BitVec.ofNat 8 (a.toNat / 2 ^ 33) ∧
    ArgWord.maxValue a = BitVec.ofNat 33 a.toNat :=
  ⟨extractLsb'_eq_ofNat_div a 41 8, extractLsb'_eq_ofNat_div a 33 8, rfl⟩

theorem ReqWord.op_eq_iff (w : ReqWord) (op : BitVec 2) : ReqWord.op w = op ↔ w.toNat / 2 ^ 48 = op.toNat := by
  rw [← BitVec.toNat_inj, ReqWord.op_toNat]

theorem ReqWord.reserved_eq_zero_iff (w : ReqWord) : ReqWord.reserved w = 0 ↔ w.toNat / 2 ^ 8 % 2 ^ 24 = 0 := by
  rw [← BitVec.toNat_inj, ReqWord.reserved, extractLsb'_eq_ofNat_div, BitVec.toNat_ofNat]
  rfl

theorem ArgWord.maxValue_toNat (a : ArgWord) : (ArgWord.maxValue a).toNat = a.toNat % 2 ^ 33 := by
  rw [ArgWord.maxValue, BitVec.extractLsb'_toNat, Nat.shiftRight_zero]

/-! ## Decoding a request by its row (R41, R47) -/

section rows
variable {w : ReqWord}

theorem decode_req_enc (hop : ReqWord.op w = 0) :
    decode (.req w) = .instr (.enc (ReqWord.k w) (ReqWord.m w) (ReqWord.data w)) := by
  simp [decode, decodeRequest, hop]

theorem decode_req_dec (hop : ReqWord.op w = 1) (hr : ReqWord.reserved w = 0) :
    decode (.req w) = .instr (.dec (ReqWord.k w) (ReqWord.m w) (ReqWord.codeword w)) := by
  simp [decode, decodeRequest, hop, hr]

theorem decode_req_lutrd (hop : ReqWord.op w = 2) (hr : ReqWord.reserved w = 0) :
    decode (.req w) = .instr (.lutrd (ReqWord.k w) (ReqWord.m w) (ReqWord.codeword w)) := by
  simp [decode, decodeRequest, hop, hr]

/-- A request in no row is rejected. -/
theorem exists_rejected_of_no_row (h₀ : ReqWord.op w ≠ 0) (h₁ : ¬ (ReqWord.op w = 1 ∧ ReqWord.reserved w = 0))
    (h₂ : ¬ (ReqWord.op w = 2 ∧ ReqWord.reserved w = 0)) : ∃ why, decode (.req w) = .rejected why := by
  obtain ⟨hop, -⟩ | ⟨hop, hr, -⟩ | ⟨hop, hr, -⟩ | ⟨-, -, hd⟩ | ⟨-, hd⟩ := decode_req_cases w
  · exact absurd ((ReqWord.op_eq_iff w 0).2 hop) h₀
  · exact absurd ⟨(ReqWord.op_eq_iff w 1).2 hop, hr⟩ h₁
  · exact absurd ⟨(ReqWord.op_eq_iff w 2).2 hop, hr⟩ h₂
  · exact ⟨_, hd⟩
  · exact ⟨_, hd⟩

end rows

/-- No request is a call of the tool, accepted or not. -/
theorem decode_req_ne_buildlut (w : ReqWord) (K M : Param) (n : Count) :
    decode (.req w) ≠ .instr (.buildlut K M n) := by
  obtain ⟨-, hd⟩ | ⟨-, -, hd⟩ | ⟨-, -, hd⟩ | ⟨-, -, hd⟩ | ⟨-, hd⟩ := decode_req_cases w <;> simp [hd]

/-- A word shows a row's op field under a mask of op and data bits exactly when it has that op field and none of the data
bits. -/
theorem and_mask_eq_iff (w : ReqWord) (op : BitVec 2) (m : Sample) :
    w &&& requestWord 3 0 0 m = requestWord op 0 0 0 ↔ ReqWord.op w = op ∧ ReqWord.data w &&& m = 0 := by
  have hmask := Laws.RowPattern.mask_requestWord (ReqWord.op w) (ReqWord.k w) (ReqWord.m w) (ReqWord.data w) m
  rw [requestWord_fields] at hmask
  rw [hmask]
  constructor
  · intro h
    exact ⟨by simpa using congrArg ReqWord.op h, by simpa using congrArg ReqWord.data h⟩
  · rintro ⟨rfl, hd⟩
    rw [hd]

/-- The row of ENC is the op field alone. -/
theorem and_enc_mask_iff (w : ReqWord) : w &&& 0x3000000000000 = 0 ↔ ReqWord.op w = 0 := by
  have h := and_mask_eq_iff w 0 0
  simpa [requestWord] using h

/-- The mask of the data bits 31:8 shows the reserved bits. -/
theorem ReqWord.data_and_mask (w : ReqWord) : ReqWord.data w &&& 0xFFFFFF00 = ReqWord.reserved w ++ (0 : Code) := by
  rw [ReqWord.data_eq_append]
  change (ReqWord.reserved w ++ ReqWord.codeword w) &&& (BitVec.allOnes 24 ++ 0#8) = _
  rw [BitVec.and_append, BitVec.and_allOnes, BitVec.and_zero]
  rfl

/-- The rows of DEC and LUTRD are the op field without reserved bits. -/
theorem and_code_mask_iff (w : ReqWord) (op : BitVec 2) :
    w &&& 0x30000FFFFFF00 = requestWord op 0 0 0 ↔ ReqWord.op w = op ∧ ReqWord.reserved w = 0 := by
  have hr : ReqWord.reserved w ++ (0 : Code) = 0 ↔ ReqWord.reserved w = 0 := BitVec.append_left_inj (s₂ := 0#24) 0#8
  have h := and_mask_eq_iff w op 0xFFFFFF00
  rw [ReqWord.data_and_mask, hr] at h
  exact h

/-! ## A step that takes a word (R40, R47) -/

/-- An input waits only for a running tool. -/
theorem State.waits_eq_false {s : State} {x : Input} (h : ∀ t, s.tool = some t → s.waits x = false) :
    s.waits x = false := by
  cases ht : s.tool with
  | none => exact s.waits_of_no_tool ht x
  | some t => exact h t ht

section step
variable {s : State} {w : InstrWord} {rest : List Input}

theorem step_of_decode_instr {i : Instr} (hin : s.input = .word w :: rest) (hw : s.waits (.word w) = false)
    (hd : decode w = .instr i) : step s = exec i { s with input := rest } := by
  simp only [step, s.fetch_cons hin hw, hd]

theorem step_of_decode_rejected {why : Reject} (hin : s.input = .word w :: rest) (hw : s.waits (.word w) = false)
    (hd : decode w = .rejected why) : step s = .next (State.reject { s with input := rest } why) := by
  simp only [step, s.fetch_cons hin hw, hd]

end step

/-- A table row that is an operation is the word of the row, decoded. -/
theorem decode_tableWord {nbits w : Nat} {i : Instr} (h : decodeTableWord nbits w = some i) :
    decode (tableWord nbits w) = .instr i := by
  by_cases hw : w < 2 ^ (if nbits = 49 then 49 else 50)
  · rw [decodeTableWord, if_pos hw] at h
    cases hd : decode (tableWord nbits w) with
    | instr j => simpa [hd] using h
    | rejected why => simp [hd] at h
  · rw [decodeTableWord, if_neg hw] at h
    cases h

/-- A rejected request is answered BAD_REQUEST at once, whether or not the tool runs. -/
theorem step_of_rejected_request {s : State} {w : ReqWord} {rest : List Input} {why : Reject}
    (hin : s.input = .word (.req w) :: rest) (hd : decode (.req w) = .rejected why) :
    step s = .next (State.replyFailure { s with input := rest } .badRequest) := by
  have hwhy : why = .reservedBits ∨ why = .reservedOp := by
    obtain ⟨-, hd'⟩ | ⟨-, -, hd'⟩ | ⟨-, -, hd'⟩ | ⟨-, -, hd'⟩ | ⟨-, hd'⟩ := decode_req_cases w <;>
      rw [hd'] at hd <;> cases hd
    · exact .inl rfl
    · exact .inr rfl
  have hwaits : s.waits (.word (.req w)) = false := State.waits_eq_false fun t ht => by
    rw [s.waits_rejected ht hd]
    obtain rfl | rfl := hwhy <;> rfl
  rw [step_of_decode_rejected hin hwaits hd]
  obtain rfl | rfl := hwhy <;> rfl

/-! ## The response word (R42, R43) -/

@[simp] theorem Status.ofCode_code (st : Status) : Status.ofCode st.code = some st := by
  cases st with
  | ok => rfl
  | failed why => cases why <;> rfl

/-- Code 7 is the one code that stands for no status. -/
theorem Status.ofCode_eq_none_iff (c : BitVec 3) : Status.ofCode c = none ↔ c.toNat = 7 := by
  revert c
  decide

theorem Response.word_toNat (r : Response) : r.word.toNat = r.status.code.toNat * 2 ^ 32 + r.data.toNat := by
  rw [Response.word, BitVec.toNat_append, ← Nat.shiftLeft_add_eq_or_of_lt r.data.isLt, Nat.shiftLeft_eq]

@[simp] theorem Response.ofWord_word (r : Response) : Response.ofWord r.word = some r := by
  have hst : r.word.extractLsb' 32 3 = r.status.code := BitVec.extractLsb'_append_eq_left
  have hdata : r.word.extractLsb' 0 32 = r.data := BitVec.extractLsb'_append_eq_right
  rw [Response.ofWord, hst, hdata, Status.ofCode_code]

/-- A word stands for no response exactly when its code stands for no status. -/
theorem Response.ofWord_eq_none_iff (w : RspWord) : Response.ofWord w = none ↔ w.toNat / 2 ^ 32 = 7 := by
  have hcode : (w.extractLsb' 32 3).toNat = w.toNat / 2 ^ 32 := by
    rw [extractLsb'_eq_ofNat_div, BitVec.toNat_ofNat]
    exact Nat.mod_eq_of_lt (by omega)
  have hnone : Response.ofWord w = none ↔ Status.ofCode (w.extractLsb' 32 3) = none := by
    unfold Response.ofWord
    cases Status.ofCode (w.extractLsb' 32 3) <;> simp
  rw [hnone, Status.ofCode_eq_none_iff, hcode]

/-! ## A codeword on naturals (R44, R54) -/

theorem mantissa_eq_mod (c M : Nat) : mantissa c M = c % 2 ^ M := Nat.and_two_pow_sub_one_eq_mod c M

theorem field_eq_div (c M : Nat) : field c M = c / 2 ^ M := Nat.shiftRight_eq_div_pow c M

theorem mantissa_add_field (c M : Nat) : mantissa c M + field c M <<< M = c := by
  rw [mantissa_eq_mod, field_eq_div, Nat.shiftLeft_eq]
  exact Nat.mod_add_div' c (2 ^ M)

/-- The linear region is the fields 0 and 1. -/
theorem lt_linearLimit_iff (c M : Nat) : c < linearLimit M ↔ field c M ≤ 1 := by
  rw [field_eq_div, ← Nat.lt_succ_iff, Nat.div_lt_iff_lt_mul (Nat.two_pow_pos M), linearLimit_eq, pow_succ']

/-! ## Decimal numerals (R50, R51) -/

/-- The character the model writes for a decimal digit is read as that digit. -/
theorem digit?_ofNat {d : Nat} (h : d < 10) : digit? (Char.ofNat (48 + d)) = some d := by
  revert d
  decide

theorem digits?_cons_of_digit {c : Char} {d : Nat} (h : digit? c = some d) (acc : Nat) (rest : Text) :
    digits? acc (c :: rest) = digits? (acc * 10 + d) rest := by
  simp only [digits?, h]

/-- Reading the digits of `n` and then the rest is reading the rest after `n`. -/
theorem digits?_decimalOnto {fuel n : Nat} (h : n < fuel) (rest : Text) :
    digits? 0 (decimalOnto fuel n rest) = digits? n rest := by
  induction fuel generalizing n rest with
  | zero => omega
  | succ fuel ih =>
    have hd : digit? (Char.ofNat (48 + n % 10)) = some (n % 10) := digit?_ofNat (Nat.mod_lt n (by decide))
    rw [decimalOnto]
    split
    · next hlt => rw [digits?_cons_of_digit hd, Nat.zero_mul, Nat.zero_add, Nat.mod_eq_of_lt hlt]
    · next hge =>
      rw [ih (by omega), digits?_cons_of_digit hd]
      congr 1
      omega

theorem digits?_decimal (n : Nat) : digits? 0 (decimal n) = some n := digits?_decimalOnto (Nat.lt_succ_self n) []

/-- The first character written is a digit, and it is 0 only for the number 0. -/
theorem decimalOnto_head {fuel n : Nat} (h : n < fuel) (rest : Text) :
    ∃ c cs, decimalOnto fuel n rest = c :: cs ∧ (c = '0' → n = 0) := by
  induction fuel generalizing n rest with
  | zero => omega
  | succ fuel ih =>
    rw [decimalOnto]
    split
    · next hlt =>
      refine ⟨_, _, rfl, fun hc => ?_⟩
      have hd : digit? '0' = some (n % 10) := hc ▸ digit?_ofNat (Nat.mod_lt n (by decide))
      have : 0 = n % 10 := Option.some.inj hd
      omega
    · next hge =>
      obtain ⟨c, cs, htext, hc⟩ := ih (n := n / 10) (by omega) (Char.ofNat (48 + n % 10) :: rest)
      exact ⟨c, cs, htext, fun h0 => by have := hc h0; omega⟩

/-! ## The printed table (R50, R52) -/

/-- What is read as digits holds no other character. -/
theorem not_mem_of_digits? {x : Char} (hx : digit? x = none) {acc n : Nat} {text : Text}
    (h : digits? acc text = some n) : x ∉ text := by
  induction text generalizing acc with
  | nil => simp
  | cons c rest ih =>
    cases hc : digit? c with
    | none => simp [digits?, hc] at h
    | some d =>
      rw [digits?_cons_of_digit hc] at h
      have hne : x ≠ c := fun hxc => by simp [← hxc, hx] at hc
      simp [hne, ih h]

/-- Texts that are ended by a character neither holds are equal if what they begin is equal. -/
theorem append_cons_inj_of_not_mem {x : Char} {p q r t : Text} (hp : x ∉ p) (hq : x ∉ q)
    (h : p ++ x :: r = q ++ x :: t) : p = q ∧ r = t := by
  induction p generalizing q with
  | nil =>
    cases q with
    | nil => exact ⟨rfl, (List.cons.inj h).2⟩
    | cons b q =>
      obtain ⟨rfl, -⟩ := List.cons.inj h
      exact absurd (.head _) hq
  | cons a p ih =>
    cases q with
    | nil =>
      obtain ⟨rfl, -⟩ := List.cons.inj h
      exact absurd (.head _) hp
    | cons b q =>
      obtain ⟨rfl, h'⟩ := List.cons.inj h
      obtain ⟨rfl, rfl⟩ := ih (fun hx => hp (.tail _ hx)) (fun hx => hq (.tail _ hx)) h'
      exact ⟨rfl, rfl⟩

/-- Numbers written before a character that is no digit are read back apart from what follows it. -/
theorem decimal_append_inj {x : Char} (hx : digit? x = none) {m n : Nat} {r t : Text}
    (h : decimal m ++ x :: r = decimal n ++ x :: t) : m = n ∧ r = t := by
  obtain ⟨hmn, hrt⟩ := append_cons_inj_of_not_mem (not_mem_of_digits? hx (digits?_decimal m))
    (not_mem_of_digits? hx (digits?_decimal n)) h
  exact ⟨Option.some.inj (by rw [← digits?_decimal m, ← digits?_decimal n, hmn]), hrt⟩

/-- A line begins with its codeword, then a colon, its value and a line feed. -/
theorem pairLine_append (p : Code × Sample) (r : Text) :
    pairLine p ++ r = decimal p.1.toNat ++ ':' :: (decimal p.2.toNat ++ '\n' :: r) := by
  simp [pairLine]

/-- A line at the front of a text determines its pair and what follows it. -/
theorem pairLine_append_inj {p q : Code × Sample} {r t : Text} (h : pairLine p ++ r = pairLine q ++ t) :
    p = q ∧ r = t := by
  rw [pairLine_append, pairLine_append] at h
  obtain ⟨hcode, hrest⟩ := decimal_append_inj (by decide) h
  obtain ⟨hvalue, hrt⟩ := decimal_append_inj (by decide) hrest
  exact ⟨Prod.ext (BitVec.eq_of_toNat_eq hcode) (BitVec.eq_of_toNat_eq hvalue), hrt⟩

@[simp] theorem tableText_nil : tableText [] = [] := rfl

@[simp] theorem tableText_cons (p : Code × Sample) (ps : List (Code × Sample)) :
    tableText (p :: ps) = pairLine p ++ tableText ps := List.flatMap_cons

theorem pairLine_ne_nil (p : Code × Sample) : pairLine p ≠ [] := by simp [pairLine]

/-! ## The obligations -/

/-- Settles O2: the fields of an encoded operation are its op and its operands, and the decoder selects by them. -/
theorem decodeOfEncode : Obligations.DecodeOfEncode := by
  intro i hi
  cases i with
  | enc K M v => simp [encode, decode_req_enc]
  | dec K M c => simp [encode, decode_req_dec]
  | lutrd K M c => simp [encode, decode_req_lutrd]
  | buildlut K M n =>
    have hn : (ArgWord.maxValue (K ++ M ++ n)).toNat ≤ Config.maxSweep := by
      simpa [Instr.wellFormed] using hi
    simp [encode, decode_argv_of_le hn]

/-- Settles O3: a word is the row of its fields, and where it decodes to DEC or LUTRD its reserved bits are 0. -/
theorem encodeOfDecode : Obligations.EncodeOfDecode := by
  intro w i hd
  cases w with
  | req w =>
    have hw := requestWord_fields w
    obtain ⟨hop, hd'⟩ | ⟨hop, hr, hd'⟩ | ⟨hop, hr, hd'⟩ | ⟨-, -, hd'⟩ | ⟨-, hd'⟩ := decode_req_cases w <;>
      rw [hd'] at hd <;> cases hd
    · rw [(ReqWord.op_eq_iff w 0).2 hop] at hw
      exact ⟨congrArg _ hw, rfl⟩
    · rw [(ReqWord.op_eq_iff w 1).2 hop, ReqWord.data_of_reserved hr] at hw
      exact ⟨congrArg _ hw, rfl⟩
    · rw [(ReqWord.op_eq_iff w 2).2 hop, ReqWord.data_of_reserved hr] at hw
      exact ⟨congrArg _ hw, rfl⟩
  | argv a =>
    by_cases ha : (ArgWord.maxValue a).toNat ≤ Config.maxSweep
    · rw [decode_argv_of_le ha] at hd
      cases hd
      exact ⟨congrArg _ (argWord_fields a), decide_eq_true ha⟩
    · rw [decode_argv_of_not_le ha] at hd
      cases hd

/-- Settles O4: the masks show the op field and the reserved bits, by which the decoder selects. -/
theorem requestRowsByMatchAndMask : Obligations.RequestRowsByMatchAndMask := by
  refine ⟨fun w => ⟨fun h => ?_, fun h => ?_, fun h => ?_, fun h₀ h₁ h₂ s rest hin => ?_, decode_req_ne_buildlut w⟩,
    fun a ha => ?_⟩
  · have hop := (and_enc_mask_iff w).1 h
    simp only [decode_req_enc hop, ReqWord.fields_eq_ofNat]
  · obtain ⟨hop, hr⟩ := (and_code_mask_iff w 1).1 h
    simp only [decode_req_dec hop hr, ReqWord.fields_eq_ofNat]
  · obtain ⟨hop, hr⟩ := (and_code_mask_iff w 2).1 h
    simp only [decode_req_lutrd hop hr, ReqWord.fields_eq_ofNat]
  · obtain ⟨why, hd⟩ := exists_rejected_of_no_row (fun h => h₀ ((and_enc_mask_iff w).2 h))
      (fun h => h₁ ((and_code_mask_iff w 1).2 h)) (fun h => h₂ ((and_code_mask_iff w 2).2 h))
    exact step_of_rejected_request hin hd
  · have hmax : (ArgWord.maxValue a).toNat ≤ Config.maxSweep := (ArgWord.maxValue_toNat a).trans_le ha
    simp only [decode_argv_of_le hmax, ArgWord.fields_eq_ofNat]

/-- Settles O5: a request is rejected in the last two cases of the decoder, and then answered at once. -/
theorem illegalRequestsAnswerBadRequest : Obligations.IllegalRequestsAnswerBadRequest := by
  intro w
  refine ⟨?_, fun s rest why hin hd => step_of_rejected_request hin hd⟩
  have hr := ReqWord.reserved_eq_zero_iff w
  obtain ⟨h, hd⟩ | ⟨h, h0, hd⟩ | ⟨h, h0, hd⟩ | ⟨h, hne, hd⟩ | ⟨h, hd⟩ := decode_req_cases w
  · exact iff_of_false (by simp [hd]) (by omega)
  · have hzero := hr.1 h0
    exact iff_of_false (by simp [hd]) (by omega)
  · have hzero := hr.1 h0
    exact iff_of_false (by simp [hd]) (by omega)
  · exact iff_of_true ⟨_, hd⟩ (.inr ⟨h, fun h0 => hne (hr.2 h0)⟩)
  · exact iff_of_true ⟨_, hd⟩ (.inl h)

/-- Settles O6: the word is the code put above the data, and the codes are read back one by one. -/
theorem responseWordHoldsStatusAndData : Obligations.ResponseWordHoldsStatusAndData :=
  ⟨fun r => ⟨r.word_toNat, r.ofWord_word⟩, Response.ofWord_eq_none_iff, rfl, rfl, rfl, rfl, rfl, rfl, rfl⟩

/-- Settles O8: mantissa and field are the remainder and the quotient by 2^M. -/
theorem codewordSplitsAtM : Obligations.CodewordSplitsAtM := fun c M =>
  ⟨(mantissa_add_field c M).symm, mantissa_eq_mod c M, field_eq_div c M, lt_linearLimit_iff c M⟩

/-- Settles O10: by induction on the digits written, each is read back after those before it. -/
theorem decimalNumeralsReadBack : Obligations.DecimalNumeralsReadBack := by
  intro n
  have hread : digits? 0 (decimal n) = some n := digits?_decimal n
  obtain ⟨c, cs, htext, hzero⟩ : ∃ c cs, decimal n = c :: cs ∧ (c = '0' → n = 0) :=
    decimalOnto_head (Nat.lt_succ_self n) []
  rw [htext] at hread ⊢
  exact ⟨hread, fun h => hzero (Option.some.inj h)⟩

/-- Settles O11: by induction on the pairs, each line determines its pair and what follows it. -/
theorem printedTableDeterminesPairs : Obligations.PrintedTableDeterminesPairs := by
  intro ps qs h
  induction ps generalizing qs with
  | nil =>
    cases qs with
    | nil => rfl
    | cons q qs => simp [pairLine_ne_nil] at h
  | cons p ps ih =>
    cases qs with
    | nil => simp [pairLine_ne_nil] at h
    | cons q qs =>
      rw [tableText_cons, tableText_cons] at h
      obtain ⟨rfl, hrest⟩ := pairLine_append_inj h
      rw [ih qs hrest]

/-- Settles O1: each word is evaluated. -/
theorem writtenWordsDecode : Obligations.WrittenWordsDecode :=
  ⟨by decide, by decide, by decide, by decide⟩

/-- Settles O12: the word need not wait, so it is taken. -/
theorem stepRunsTheDecodedOperation : Obligations.StepRunsTheDecodedOperation := by
  intro s w i rest hserved hin hd
  have hwaits : s.waits (.word w) = false := State.waits_eq_false fun t ht => by
    rw [s.waits_instr ht hd]
    obtain ⟨K, M, v, rfl⟩ | ⟨K, M, c, rfl⟩ | ⟨⟨K, M, c, rfl⟩, hown⟩ := hserved t ht
    · rfl
    · rfl
    · exact decide_eq_false hown
  exact step_of_decode_instr hin hwaits hd

/-- Settles O13: the placed word is the oldest input and no tool runs. -/
theorem stepRunsThePlacedWord : Obligations.StepRunsThePlacedWord := by
  intro s nbits w i hi
  exact step_of_decode_instr rfl (State.waits_of_no_tool _ rfl _) (decode_tableWord hi)

end Sys2Proof.Machine

/-! Proofs of the encode statements (spec/40_encode.md R61 to R70). The idea is that the implicit bit of the shifted sample,
left in place, carries into the field: the codeword of an exponential sample is the shifted sample plus the shift count
above M bits (`leadingCode`). Every answer of ENC is then given by the position of the leading 1. -/

namespace Sys2Proof.Machine

/-! ## The response of an encode (R42, R69) -/

section response
variable {K M : Param} {value : Sample} (s : State)

/-- A successful encode goes on with its codeword, zero-extended, and nothing else changed. -/
theorem exec_enc_of_ok {c : Code} (h : enc value.toNat K.toNat M.toNat = .ok c) :
    exec (.enc K M value) s =
      .next { s with responses := s.responses ++ [⟨.ok, BitVec.ofNat 32 c.toNat⟩] } := by
  simp only [exec, execEnc, h, State.replyCode_ok, State.reply, BitVec.ofNat_toNat]

/-- A failed encode goes on with the sentinel, and nothing else changed. -/
theorem exec_enc_of_fail {why : Failure} (h : enc value.toNat K.toNat M.toNat = .fail why) :
    exec (.enc K M value) s =
      .next { s with responses := s.responses ++ [⟨.failed why, 0x000000FF⟩] } := by
  simp only [exec, execEnc, h, State.replyCode_fail, State.reply]

end response

/-! ## The leading 1 of a sample (R63, R66) -/

/-- The codeword of a sample whose leading 1 is at `p > M`, on naturals: the implicit bit counts as one of the field. -/
def leadingCode (v p M : Nat) : Nat := v / 2 ^ (p - M) + (p - M) * 2 ^ M

theorem exists_leading_bit {M v : Nat} (h : 2 ^ (M + 1) ≤ v) : ∃ p, M < p ∧ 2 ^ p ≤ v ∧ v < 2 ^ (p + 1) := by
  have hv : v ≠ 0 := (Nat.two_pow_pos _).trans_le h |>.ne'
  exact ⟨v.log2, (Nat.le_log2 hv).2 h, Nat.log2_self_le hv, Nat.lt_log2_self⟩

section leading
variable {K M p v : Nat} (hlo : 2 ^ p ≤ v) (hhi : v < 2 ^ (p + 1))
include hlo hhi

/-- A power of two is above a number exactly when its bit is above the leading 1. -/
theorem lt_two_pow_iff_of_leading_bit (n : Nat) : v < 2 ^ n ↔ p < n :=
  ⟨fun h => (Nat.pow_lt_pow_iff_right (a := 2) (by decide)).1 (hlo.trans_lt h),
    fun h => hhi.trans_le (Nat.pow_le_pow_right (by decide) h)⟩

/-- The shifts bring the leading 1 to bit M. -/
theorem shifted_mem_of_leading_bit (hM : M ≤ p) : 2 ^ M ≤ v / 2 ^ (p - M) ∧ v / 2 ^ (p - M) < 2 ^ (M + 1) := by
  constructor
  · rw [Nat.le_div_iff_mul_le (Nat.two_pow_pos _), ← pow_add, Nat.add_sub_cancel' hM]
    exact hlo
  · rw [Nat.div_lt_iff_lt_mul (Nat.two_pow_pos _), ← pow_add, Nat.add_right_comm, Nat.add_sub_cancel' hM]
    exact hhi

/-- The shifted sample without its implicit bit is its low M bits. -/
theorem shifted_mod_of_leading_bit (hM : M ≤ p) : v / 2 ^ (p - M) % 2 ^ M = v / 2 ^ (p - M) - 2 ^ M := by
  obtain ⟨hge, hlt⟩ := shifted_mem_of_leading_bit hlo hhi hM
  rw [Nat.mod_eq_sub_mod hge, Nat.mod_eq_of_lt]
  rw [pow_succ] at hlt
  omega

/-- What the loop of a 32-bit sample leaves: the shifted sample and the shift count plus one. -/
theorem shiftLoop_eq_of_leading_bit (hM : M ≤ p) (hv : v < 2 ^ 32) :
    shiftLoop M 32 v 1 = (v / 2 ^ (p - M), p - M + 1) := by
  rw [shiftLoop_of_sample hlo hhi hM hv, Nat.shiftRight_eq_div_pow, Nat.add_comm]

/-- The mantissa under the field is the shifted sample, implicit bit and all, under the shift count. -/
theorem sub_add_field_eq_leadingCode (hM : M ≤ p) :
    v / 2 ^ (p - M) - 2 ^ M + (p - M + 1) * 2 ^ M = leadingCode v p M := by
  obtain ⟨hge, -⟩ := shifted_mem_of_leading_bit hlo hhi hM
  rw [leadingCode, Nat.succ_mul]
  omega

theorem field_leadingCode (hM : M ≤ p) : field (leadingCode v p M) M = p - M + 1 := by
  obtain ⟨hge, hlt⟩ := shifted_mem_of_leading_bit hlo hhi hM
  have hone : v / 2 ^ (p - M) / 2 ^ M = 1 :=
    Nat.div_eq_of_lt_le ((Nat.one_mul _).trans_le hge) (pow_succ' 2 M ▸ hlt)
  rw [field_eq_div, leadingCode, Nat.add_mul_div_right _ _ (Nat.two_pow_pos M), hone, Nat.add_comm]

/-- The codeword of an exponential sample is outside the linear region (R67). -/
theorem le_leadingCode (hM : M < p) : 2 ^ (M + 1) ≤ leadingCode v p M := by
  have hfield := field_leadingCode hlo hhi hM.le
  have hlin := lt_linearLimit_iff (leadingCode v p M) M
  rw [linearLimit_eq] at hlin
  omega

/-- A field of K bits makes a codeword of K + M bits (R65, R67). -/
theorem leadingCode_lt (hM : M ≤ p) (hfits : p - M + 1 ≤ 2 ^ K - 1) : leadingCode v p M < 2 ^ (K + M) := by
  have hfield := field_leadingCode hlo hhi hM
  rw [field_eq_div] at hfield
  rw [pow_add, ← Nat.div_lt_iff_lt_mul (Nat.two_pow_pos M), hfield]
  omega

/-- The field fits K bits exactly below the overflow threshold (R70). -/
theorem lt_overflowLimit_iff_of_leading_bit (hM : M < p) : v < overflowLimit K M ↔ p - M + 1 ≤ 2 ^ K - 1 := by
  rw [overflowLimit, lt_two_pow_iff_of_leading_bit hlo hhi]
  omega

end leading

/-! ## What ENC answers, by the position of the leading 1 (R62 to R66) -/

/-- Nothing a valid pair can encode needs a ninth bit (R65). -/
theorem lt_256_of_lt_two_pow {n c : Nat} (hn : n ≤ 8) (hc : c < 2 ^ n) : c < 256 :=
  hc.trans_le (Nat.pow_le_pow_right (n := 2) (by decide) hn)

section answers
variable {K M v : Nat}

theorem enc_of_not_valid (h : ¬ valid K M) : enc v K M = .fail .invalidParams := if_neg h

/-- A linear sample is its own codeword (R62). -/
theorem enc_of_linear (h : valid K M) (hlin : v < 2 ^ (M + 1)) : ∃ c, enc v K M = .ok c ∧ c.toNat = v := by
  refine ⟨BitVec.ofNat 8 v, ?_, Nat.mod_eq_of_lt (lt_256_of_lt_two_pow (by omega) hlin)⟩
  rw [enc, if_pos h, if_pos (linearLimit_eq M ▸ hlin)]

variable {p : Nat}

/-- ENC on an exponential sample, its loop run (R63 to R65). -/
theorem enc_of_leading_bit (h : valid K M) (hlo : 2 ^ p ≤ v) (hhi : v < 2 ^ (p + 1)) (hM : M < p) (hv : v < 2 ^ 32) :
    enc v K M = if 2 ^ K - 1 < p - M + 1 then .fail .expOverflow else .ok (BitVec.ofNat 8 (leadingCode v p M)) := by
  have hexp : ¬ v < linearLimit M := by
    rw [linearLimit_eq, lt_two_pow_iff_of_leading_bit hlo hhi]
    omega
  simp only [enc, if_pos h, if_neg hexp, shiftLoop_eq_of_leading_bit hlo hhi hM.le hv, gt_iff_lt,
    Nat.and_two_pow_sub_one_eq_mod, shifted_mod_of_leading_bit hlo hhi hM.le, Nat.shiftLeft_eq,
    sub_add_field_eq_leadingCode hlo hhi hM.le]

/-- Where the field fits K bits, the answer is the codeword (R65). -/
theorem enc_of_field_fits (h : valid K M) (hlo : 2 ^ p ≤ v) (hhi : v < 2 ^ (p + 1)) (hM : M < p) (hv : v < 2 ^ 32)
    (hfits : p - M + 1 ≤ 2 ^ K - 1) : ∃ c, enc v K M = .ok c ∧ c.toNat = leadingCode v p M := by
  have ⟨_, _, hsum⟩ := h
  refine ⟨_, (enc_of_leading_bit h hlo hhi hM hv).trans (if_neg hfits.not_gt), ?_⟩
  exact Nat.mod_eq_of_lt (lt_256_of_lt_two_pow hsum (leadingCode_lt hlo hhi hM.le hfits))

/-- Where it does not, the answer is EXP_OVERFLOW (R64). -/
theorem enc_of_field_overflows (h : valid K M) (hlo : 2 ^ p ≤ v) (hhi : v < 2 ^ (p + 1)) (hM : M < p)
    (hv : v < 2 ^ 32) (hover : 2 ^ K - 1 < p - M + 1) : enc v K M = .fail .expOverflow :=
  (enc_of_leading_bit h hlo hhi hM hv).trans (if_pos hover)

/-- From the threshold on ENC overflows (R70). -/
theorem enc_of_overflowLimit_le (h : valid K M) (hv : v < 2 ^ 32) (hge : overflowLimit K M ≤ v) :
    enc v K M = .fail .expOverflow := by
  have hexp : 2 ^ (M + 1) ≤ v := (Nat.pow_le_pow_right (by decide) (le_max_right _ _)).trans hge
  obtain ⟨p, hM, hlo, hhi⟩ := exists_leading_bit hexp
  have hT := lt_overflowLimit_iff_of_leading_bit (K := K) hlo hhi hM
  exact enc_of_field_overflows h hlo hhi hM hv (by omega)

/-- Below the threshold ENC succeeds (R70). -/
theorem exists_enc_ok_of_lt_overflowLimit (h : valid K M) (hv : v < 2 ^ 32) (hlt : v < overflowLimit K M) :
    ∃ c, enc v K M = .ok c := by
  by_cases hlin : v < 2 ^ (M + 1)
  · obtain ⟨c, hc, -⟩ := enc_of_linear h hlin
    exact ⟨c, hc⟩
  · obtain ⟨p, hM, hlo, hhi⟩ := exists_leading_bit (Nat.not_lt.1 hlin)
    obtain ⟨c, hc, -⟩ :=
      enc_of_field_fits h hlo hhi hM hv ((lt_overflowLimit_iff_of_leading_bit hlo hhi hM).1 hlt)
    exact ⟨c, hc⟩

/-- Every successful encode of a 32-bit sample: a linear sample as itself, or an exponential one whose field fits. -/
theorem enc_ok_cases {c : Code} (hv : v < 2 ^ 32) (hok : enc v K M = .ok c) :
    valid K M ∧
    ((v < 2 ^ (M + 1) ∧ c.toNat = v) ∨
      ∃ p, M < p ∧ p < 32 ∧ 2 ^ p ≤ v ∧ v < 2 ^ (p + 1) ∧ p - M + 1 ≤ 2 ^ K - 1 ∧ c.toNat = leadingCode v p M) := by
  by_cases h : valid K M
  case neg => rw [enc_of_not_valid h] at hok; cases hok
  refine ⟨h, ?_⟩
  by_cases hlin : v < 2 ^ (M + 1)
  · obtain ⟨c', hc', hcode⟩ := enc_of_linear h hlin
    obtain rfl : c' = c := Result.ok.inj (hc'.symm.trans hok)
    exact .inl ⟨hlin, hcode⟩
  · obtain ⟨p, hM, hlo, hhi⟩ := exists_leading_bit (Nat.not_lt.1 hlin)
    have hp : p < 32 := (lt_two_pow_iff_of_leading_bit hlo hhi 32).1 hv
    by_cases hfits : p - M + 1 ≤ 2 ^ K - 1
    · obtain ⟨c', hc', hcode⟩ := enc_of_field_fits h hlo hhi hM hv hfits
      obtain rfl : c' = c := Result.ok.inj (hc'.symm.trans hok)
      exact .inr ⟨p, hM, hp, hlo, hhi, hfits, hcode⟩
    · rw [enc_of_field_overflows h hlo hhi hM hv (Nat.not_le.1 hfits)] at hok
      cases hok

end answers

/-! ## The obligations -/

/-- Settles O26: the loop, the mantissa and the codeword are those of the leading 1, and the field decides the answer. -/
theorem encExponentialKeepsLeadingBits : Obligations.EncExponentialKeepsLeadingBits := by
  intro K M value s p h hlo hhi hM shifts shifted
  obtain ⟨hge, hlt⟩ := shifted_mem_of_leading_bit hlo hhi hM.le
  refine ⟨shiftLoop_eq_of_leading_bit hlo hhi hM.le value.isLt, hge, hlt,
    (shifted_mod_of_leading_bit hlo hhi hM.le).symm, fun hfits => ?_, fun hover => ?_⟩
  · obtain ⟨c, hc, hcode⟩ := enc_of_field_fits h hlo hhi hM value.isLt hfits
    rw [sub_add_field_eq_leadingCode hlo hhi hM.le, ← hcode]
    exact ⟨c.isLt, exec_enc_of_ok s hc⟩
  · exact exec_enc_of_fail s (enc_of_field_overflows h hlo hhi hM value.isLt hover)

/-- Settles O27: below the threshold a sample is linear or its field fits K bits; from it on the field does not fit. -/
theorem encOverflowsFromThresholdOn : Obligations.EncOverflowsFromThresholdOn := by
  intro K M value s h
  refine ⟨fun hge => exec_enc_of_fail s (enc_of_overflowLimit_le h value.isLt hge), fun hlt => ?_⟩
  obtain ⟨c, hc⟩ := exists_enc_ok_of_lt_overflowLimit h value.isLt hlt
  exact ⟨c, exec_enc_of_ok s hc⟩

/-- Settles O28: a linear sample is its codeword, and an exponential one has the field of its leading 1. -/
theorem encCodewordRange : Obligations.EncCodewordRange := by
  intro K M v c hv hok
  obtain ⟨h, ⟨hlin, hcode⟩ | ⟨p, hM, hp, hlo, hhi, hfits, hcode⟩⟩ := enc_ok_cases hv hok
  · refine ⟨h, fun _ => hcode, fun hexp => absurd hlin hexp.not_gt, fun hK => ?_⟩
    exact hcode ▸ hlin.trans_le (Nat.pow_le_pow_right (by decide) (by omega))
  · have hexp : 2 ^ (M + 1) ≤ v := (Nat.pow_le_pow_right (by decide) hM).trans hlo
    have hlt : leadingCode v p M < 2 ^ (K + M) := leadingCode_lt hlo hhi hM.le hfits
    rw [hcode, field_leadingCode hlo hhi hM.le]
    exact ⟨h, fun hlin => absurd hlin hexp.not_gt,
      fun _ => ⟨le_leadingCode hlo hhi hM, Nat.le_sub_one_of_lt hlt, by omega, hfits, by omega⟩, fun _ => hlt⟩

/-- Settles O24: no value is looked at. -/
theorem encInvalidParamsShowsSentinel : Obligations.EncInvalidParamsShowsSentinel := by
  intro K M value s h
  exact exec_enc_of_fail s (enc_of_not_valid h)

/-- Settles O25: the codeword of the linear region is the sample, which fits 8 bits, and is extended again. -/
theorem encLinearIsExact : Obligations.EncLinearIsExact := by
  intro K M value s h hlin
  obtain ⟨c, hc, hcode⟩ := enc_of_linear h hlin
  rw [exec_enc_of_ok s hc, hcode, BitVec.ofNat_toNat, BitVec.setWidth_eq]

end Sys2Proof.Machine

/-! Proofs of the decode statements (spec/41_decode.md R76 to R82). The idea is that DEC is decided by its reconstruction on
naturals alone: it answers `decodeNat` where that fits 32 bits and DEC_RANGE where it does not (`dec_of_decodeNat_lt`,
`dec_of_le_decodeNat`). Whether it fits is read off the shift count e, as the bucket lies between 2^(M+e) and 2^(M+1+e). -/

namespace Sys2Proof.Machine

/-! ## The response of a decode (R42, R84) -/

section response
variable {K M : Param} {c : Code} (s : State)

/-- A successful decode goes on with its value, and nothing else changed. -/
theorem exec_dec_of_ok {v : Sample} (h : dec c.toNat K.toNat M.toNat = .ok v) :
    exec (.dec K M c) s = .next { s with responses := s.responses ++ [⟨.ok, v⟩] } := by
  simp only [exec, execDec, h, State.replyResult_ok, State.reply]

/-- A failed decode goes on with a free data word, and nothing else changed but the counter of these. -/
theorem exec_dec_of_fail {why : Failure} (h : dec c.toNat K.toNat M.toNat = .fail why) :
    exec (.dec K M c) s =
      .next { s with responses := s.responses ++ [⟨.failed why, Config.freeData s.draws⟩], draws := s.draws + 1 } := by
  simp only [exec, execDec, h, State.replyResult_fail, State.replyFailure, State.reply]

end response

/-! ## The bucket of a codeword (R77, R78) -/

section bucket
variable (c M : Nat)

theorem exponent_eq_div_sub_one : exponent c M = c / 2 ^ M - 1 := by rw [exponent, field_eq_div]

/-- The implicit bit stands above the mantissa, so putting it back is an addition (R77). -/
theorem realMantissa_eq_add : realMantissa c M = c % 2 ^ M + 2 ^ M := by
  have hlt : c % 2 ^ M < 2 ^ M := Nat.mod_lt _ (Nat.two_pow_pos M)
  have h := Nat.two_pow_add_eq_or_of_lt hlt 1
  rw [Nat.mul_one] at h
  rw [realMantissa, mantissa_eq_mod, Nat.or_comm, ← h, Nat.add_comm]

theorem low_eq_mul : low c M = (c % 2 ^ M + 2 ^ M) * 2 ^ exponent c M := by
  rw [low, realMantissa_eq_add, Nat.shiftLeft_eq]

/-- The low bits of `low` are zero, so filling them is an addition (R78). -/
theorem high_eq_add : high c M = low c M + (2 ^ exponent c M - 1) := by
  have hlt : 2 ^ exponent c M - 1 < 2 ^ exponent c M := Nat.sub_one_lt (Nat.two_pow_pos _).ne'
  rw [high, low, ← Nat.shiftLeft_add_eq_or_of_lt hlt]

/-- The bucket starts with the implicit bit at `M + e` or above (R80). -/
theorem two_pow_le_low : 2 ^ (M + exponent c M) ≤ low c M := by
  rw [low_eq_mul, pow_add]
  exact Nat.mul_le_mul_right _ (Nat.le_add_left _ _)

/-- The bucket ends below `2^(M+1+e)` (R80). -/
theorem high_lt_two_pow : high c M < 2 ^ (M + 1 + exponent c M) := by
  have hmantissa : c % 2 ^ M + 2 ^ M + 1 ≤ 2 ^ (M + 1) := by
    have := Nat.mod_lt c (Nat.two_pow_pos M)
    rw [pow_succ]
    omega
  calc high c M < low c M + 2 ^ exponent c M := by
        have := Nat.two_pow_pos (exponent c M)
        rw [high_eq_add]
        omega
    _ = (c % 2 ^ M + 2 ^ M + 1) * 2 ^ exponent c M := by rw [low_eq_mul, Nat.succ_mul]
    _ ≤ 2 ^ (M + 1 + exponent c M) := by
        rw [pow_add 2 (M + 1)]
        exact Nat.mul_le_mul_right _ hmantissa

variable {c M}

/-- An exponential codeword has a shift count of at least one (R77). -/
theorem one_le_exponent (h : 2 ^ (M + 1) ≤ c) : 1 ≤ exponent c M := by
  have hfield := lt_linearLimit_iff c M
  rw [linearLimit_eq] at hfield
  rw [exponent]
  omega

/-- So the bucket has an even number of samples (R79). -/
theorem two_pow_exponent_eq (h : 2 ^ (M + 1) ≤ c) : 2 ^ exponent c M = 2 * 2 ^ (exponent c M - 1) :=
  (mul_pow_sub_one (Nat.one_le_iff_ne_zero.1 (one_le_exponent h)) 2).symm

/-- The midpoint is the lower of the two central samples of the bucket (R79). -/
theorem decodeNat_eq_add (h : 2 ^ (M + 1) ≤ c) : decodeNat c M = low c M + (2 ^ (exponent c M - 1) - 1) := by
  have hhalf := two_pow_exponent_eq h
  have := Nat.two_pow_pos (exponent c M - 1)
  rw [decodeNat_exponential h, midpoint, high_eq_add]
  omega

/-- The reconstruction is a sample of the bucket (R78). -/
theorem decodeNat_mem_bucket (h : 2 ^ (M + 1) ≤ c) : low c M ≤ decodeNat c M ∧ decodeNat c M ≤ high c M := by
  have hle : 2 ^ (exponent c M - 1) ≤ 2 ^ exponent c M := Nat.pow_le_pow_right (by decide) (Nat.sub_le _ _)
  rw [decodeNat_eq_add h, high_eq_add]
  omega

end bucket

/-! ## Where the reconstruction fits 32 bits (R80) -/

section range
variable {c K M : Nat}

theorem le_31_of_valid (h : valid K M) : M ≤ 31 := by omega

/-- A shift count of at most `31 - M` keeps the whole bucket in 32 bits. -/
theorem high_lt_of_exponent_le (hM : M ≤ 31) (he : exponent c M ≤ 31 - M) : high c M < 2 ^ 32 :=
  (high_lt_two_pow c M).trans_le (Nat.pow_le_pow_right (by decide) (by omega))

/-- A larger one puts the whole bucket above. -/
theorem le_low_of_lt_exponent (he : 31 - M < exponent c M) : 2 ^ 32 ≤ low c M :=
  (Nat.pow_le_pow_right (by decide) (by omega)).trans (two_pow_le_low c M)

theorem two_pow_le_decodeNat_iff (hM : M ≤ 31) :
    2 ^ 32 ≤ decodeNat c M ↔ 2 ^ (M + 1) ≤ c ∧ 31 - M < exponent c M := by
  by_cases hlin : c < 2 ^ (M + 1)
  · have hle : 2 ^ (M + 1) ≤ 2 ^ 32 := Nat.pow_le_pow_right (by decide) (by omega)
    rw [decodeNat_linear hlin]
    exact iff_of_false (by omega) (by omega)
  · have hexp : 2 ^ (M + 1) ≤ c := Nat.not_lt.1 hlin
    obtain ⟨hlow, hhigh⟩ := decodeNat_mem_bucket hexp
    by_cases he : exponent c M ≤ 31 - M
    · exact iff_of_false (hhigh.trans_lt (high_lt_of_exponent_le hM he)).not_ge (by omega)
    · exact iff_of_true ((le_low_of_lt_exponent (Nat.not_le.1 he)).trans hlow) ⟨hexp, Nat.not_le.1 he⟩

/-- The field of an exponential codeword is its shift count and one (R77), so the bound of R80 may be put on either. -/
theorem lt_exponent_iff (hM : M ≤ 31) : 31 - M < exponent c M ↔ 32 - M < c / 2 ^ M := by
  rw [exponent_eq_div_sub_one]
  omega

/-- The table of R80. -/
theorem field_large_iff_table (hM : M ≤ 7) (hc : c < 256) :
    2 ^ (M + 1) ≤ c ∧ 32 - M < c / 2 ^ M ↔
      (M = 0 ∧ 33 ≤ c) ∨ (M = 1 ∧ 64 ≤ c) ∨ (M = 2 ∧ 124 ≤ c) ∨ (M = 3 ∧ 240 ≤ c) := by
  interval_cases M <;> omega

/-- No 32-bit sample has a codeword with a larger field (R68). -/
theorem field_le_of_enc_ok {v : Nat} {code : Code} (hv : v < 2 ^ 32) (hok : enc v K M = .ok code) :
    field code.toNat M ≤ 32 - M := by
  obtain ⟨⟨-, hM, -⟩, hlinear, hexponential, -⟩ := encCodewordRange K M v code hv hok
  obtain hlin | hexp := Nat.lt_or_ge v (2 ^ (M + 1))
  · have hfield : field code.toNat M ≤ 1 := (lt_linearLimit_iff _ M).1 ((hlinear hlin).trans_lt hlin)
    omega
  · obtain ⟨-, -, -, -, hfield⟩ := hexponential hexp
    exact hfield

theorem dec_of_not_valid (h : ¬ valid K M) : dec c K M = .fail .invalidParams := if_neg h

/-- DEC answers the reconstruction wherever it fits 32 bits (R76, R78). -/
theorem dec_of_decodeNat_lt (h : valid K M) (hfits : decodeNat c M < 2 ^ 32) :
    dec c K M = .ok (BitVec.ofNat 32 (decodeNat c M)) := by
  have hM : M ≤ 31 := le_31_of_valid h
  obtain ⟨hn, -⟩ | ⟨-, hlin, hd⟩ | ⟨-, hexp, he, -⟩ | ⟨-, hexp, -, hd⟩ := dec_cases c K M
  · exact absurd h hn
  · rw [hd, decodeNat_linear hlin]
  · exact absurd ((two_pow_le_decodeNat_iff hM).2 ⟨hexp, he⟩) hfits.not_ge
  · rw [hd, decodeNat_exponential hexp]

/-- DEC answers DEC_RANGE wherever it does not (R80). -/
theorem dec_of_le_decodeNat (h : valid K M) (hbig : 2 ^ 32 ≤ decodeNat c M) : dec c K M = .fail .decRange := by
  have hM : M ≤ 31 := le_31_of_valid h
  obtain ⟨hexp, he⟩ := (two_pow_le_decodeNat_iff hM).1 hbig
  rw [dec, if_pos h, if_neg (show ¬ c < linearLimit M from Nat.not_lt.2 hexp), if_pos he]

end range

/-! ## The obligations -/

/-- Settles O35: filling the zero bits of `low` is an addition, and half of the odd sum is rounded down. -/
theorem decAnswersTheBucketMidpoint : Obligations.DecAnswersTheBucketMidpoint := by
  intro K M c s h hexp e lo hi mid
  have he : exponent c.toNat M.toNat = e := exponent_eq_div_sub_one _ _
  have hpos : 1 ≤ e := he ▸ one_le_exponent hexp
  have hlow : low c.toNat M.toNat = lo := by rw [low_eq_mul, he]
  have hone : 1 ≤ 2 ^ (e - 1) := Nat.two_pow_pos _
  have hhalf : 2 ^ e = 2 * 2 ^ (e - 1) := he ▸ two_pow_exponent_eq hexp
  have hhi : hi = lo + 2 ^ e - 1 := rfl
  have hmid : mid = lo + 2 ^ (e - 1) - 1 := rfl
  have hhigh : high c.toNat M.toNat = hi := by rw [high_eq_add, hlow, he]; omega
  have hdecode : decodeNat c.toNat M.toNat = mid := by rw [decodeNat_eq_add hexp, hlow, he]; omega
  refine ⟨hpos, hlow, hhigh, hdecode, by omega, by omega, by omega, fun hle => ?_⟩
  have hfits : hi < 2 ^ 32 := hhigh ▸ high_lt_of_exponent_le (le_31_of_valid h) (he ▸ hle)
  refine ⟨hfits, exec_dec_of_ok s ?_⟩
  rw [dec_of_decodeNat_lt h (by omega), hdecode]

/-- Settles O36: the shift count decides whether the bucket fits 32 bits, and every codeword of a sample has a small
enough field. -/
theorem decRangeIsWhatDoesNotFit : Obligations.DecRangeIsWhatDoesNotFit := by
  intro K M c s h
  have ⟨_, hM7, _⟩ := h
  have hM : M.toNat ≤ 31 := le_31_of_valid h
  have hfield : (2 ^ (M.toNat + 1) ≤ c.toNat ∧ 32 - M.toNat < c.toNat / 2 ^ M.toNat) ↔
      2 ^ 32 ≤ decodeNat c.toNat M.toNat := by
    rw [two_pow_le_decodeNat_iff hM, lt_exponent_iff hM]
  refine ⟨hfield, hfield.symm.trans (field_large_iff_table hM7 c.isLt),
    fun hbig => ⟨fun v hv hok => ?_, ?_⟩, fun hfits => ?_⟩
  · obtain ⟨-, hlarge⟩ := hfield.2 hbig
    exact absurd (field_eq_div c.toNat M.toNat ▸ field_le_of_enc_ok hv hok) hlarge.not_ge
  · exact exec_dec_of_fail s (dec_of_le_decodeNat h hbig)
  · exact exec_dec_of_ok s (dec_of_decodeNat_lt h hfits)

/-- Settles O33: no codeword is looked at. -/
theorem decInvalidParamsHasNoValue : Obligations.DecInvalidParamsHasNoValue := by
  intro K M c s h
  exact exec_dec_of_fail s (dec_of_not_valid h)

/-- Settles O34: a linear codeword is its own reconstruction. -/
theorem decLinearIsExact : Obligations.DecLinearIsExact := by
  intro K M c s h hlin
  have hdecode : decodeNat c.toNat M.toNat = c.toNat := decodeNat_linear hlin
  rw [exec_dec_of_ok s (dec_of_decodeNat_lt h (by omega)), hdecode]

/-- Settles O37: the reconstruction, which does not read K, decides the answer. -/
theorem decDoesNotUseK : Obligations.DecDoesNotUseK := by
  intro K₁ K₂ M c s h₁ h₂
  obtain hfits | hbig := Nat.lt_or_ge (decodeNat c.toNat M.toNat) (2 ^ 32)
  · rw [exec_dec_of_ok s (dec_of_decodeNat_lt h₁ hfits), exec_dec_of_ok s (dec_of_decodeNat_lt h₂ hfits)]
  · rw [exec_dec_of_fail s (dec_of_le_decodeNat h₁ hbig), exec_dec_of_fail s (dec_of_le_decodeNat h₂ hbig)]

end Sys2Proof.Machine

/-! Proofs of the table statements (spec/42_lut.md), first part: LUTRD and BUILDLUT as operations on the state, what the
tool does with its arguments, and the command-line tool run one sample a step. The idea of the last is that a run of the
tool changes nothing but its working state until it prints, so only what waits for it decides that it runs undisturbed. -/

namespace Sys2Proof.Machine

/-! ## The response of a table read (R42, R101) -/

section response
variable {K M : Param} {c : Code} (s : State)

/-- A successful table read goes on with its value, and nothing else changed. -/
theorem exec_lutrd_of_ok {v : Sample} (h : s.lookup K M c = .ok v) :
    exec (.lutrd K M c) s = .next { s with responses := s.responses ++ [⟨.ok, v⟩] } := by
  simp only [exec, execLutrd, h, State.replyResult_ok, State.reply]

/-- A failed table read goes on with a free data word, and nothing else changed but the counter of these. -/
theorem exec_lutrd_of_fail {why : Failure} (h : s.lookup K M c = .fail why) :
    exec (.lutrd K M c) s =
      .next { s with responses := s.responses ++ [⟨.failed why, Config.freeData s.draws⟩], draws := s.draws + 1 } := by
  simp only [exec, execLutrd, h, State.replyResult_fail, State.replyFailure, State.reply]

theorem State.lookup_of_mismatch (h : K ≠ s.lutK ∨ M ≠ s.lutM) : s.lookup K M c = .fail .lutMismatch := if_pos h

/-- With the table's own pair a lookup answers the entry. -/
theorem State.lookup_own_of_some {v : Sample} (h : s.lut.read? c.toNat = some v) :
    s.lookup s.lutK s.lutM c = .ok v := by
  simp only [State.lookup, ne_eq, not_true_eq_false, or_self, if_false, s.lutRead_of_some h]

theorem State.lookup_own_of_none (h : s.lut.read? c.toNat = none) :
    s.lookup s.lutK s.lutM c = .fail .lutAbsent := by
  simp only [State.lookup, ne_eq, not_true_eq_false, or_self, if_false, s.lutRead_of_none h, absentEntry]

theorem State.lookup_own_eq_ok_iff {v : Sample} :
    s.lookup s.lutK s.lutM c = .ok v ↔ s.lut.read? c.toNat = some v := by
  cases h : s.lut.read? c.toNat with
  | none => simp [s.lookup_own_of_none h]
  | some w => simp [s.lookup_own_of_some h]

/-- An entry reads present with a value exactly where the table lists that value (R26). -/
theorem State.lutRead_eq_present_iff {v : Sample} : s.lutRead c = ⟨true, v⟩ ↔ s.lut.read? c.toNat = some v := by
  cases h : s.lut.read? c.toNat with
  | none => simp [s.lutRead_of_none h, absentEntry]
  | some w => simp [s.lutRead_of_some h]

theorem State.lutRead_absent_iff : (s.lutRead c).present = false ↔ s.lut.read? c.toNat = none := by
  rw [s.lutRead_present, Option.isSome_eq_false_iff, Option.isNone_iff_eq_none]

end response

/-! ## BUILDLUT as one operation (R90, R103) -/

section buildlut
variable {K M : Param} {n : Count} (s : State)

theorem exec_buildlut_of_le (h : n.toNat ≤ 2 ^ 32) :
    exec (.buildlut K M n) s =
      .next ((s.beginBuild K M n.toNat).printPairs (builtPairs K M n.toNat)) :=
  congrArg Host.Outcome.next (if_pos h)

theorem exec_buildlut_of_lt (h : 2 ^ 32 < n.toNat) : exec (.buildlut K M n) s = .next s.usage :=
  congrArg Host.Outcome.next (if_neg h.not_ge)

/-- The build of a machine that is not yet fixed gives it its parameters and its table (R15, R90). -/
theorem State.beginBuild_parameters (K M : Param) (n : Nat) (h : s.isFixed = false) :
    (s.beginBuild K M n).built = true ∧ (s.beginBuild K M n).lutK = K ∧ (s.beginBuild K M n).lutM = M ∧
    (s.beginBuild K M n).lutMaxValue = n ∧ (s.beginBuild K M n).lut = builtTable K M n := by
  rw [s.beginBuild_of_not_fixed K M n h]
  exact ⟨rfl, rfl, rfl, rfl, rfl⟩

/-- Every outcome of BUILDLUT is one printout after the begin of a build, or usage. -/
theorem exec_buildlut_cases {t : State} (h : exec (.buildlut K M n) s = .next t) :
    (n.toNat ≤ 2 ^ 32 ∧ t = (s.beginBuild K M n.toNat).printPairs (builtPairs K M n.toNat)) ∨
    (2 ^ 32 < n.toNat ∧ t = s.usage) := by
  obtain hn | hn := Nat.lt_or_ge (2 ^ 32) n.toNat
  · rw [exec_buildlut_of_lt s hn] at h
    cases h
    exact .inr ⟨hn, rfl⟩
  · rw [exec_buildlut_of_le s hn] at h
    cases h
    exact .inl ⟨hn, rfl⟩

end buildlut

/-! ## The arguments of a command line (R51, R103) -/

section arguments
variable {a b c : Text} {K M n : Nat}

theorem parseArgs_of_accepted (ha : numeral? a = some K) (hb : numeral? b = some M) (hc : numeral? c = some n)
    (hK : K ≤ 255) (hM : M ≤ 255) (hn : n ≤ 2 ^ 32) :
    parseArgs [a, b, c] = some (BitVec.ofNat 8 K, BitVec.ofNat 8 M, n) := by
  simp only [parseArgs, ha, hb, hc]
  exact if_pos ⟨hK, hM, hn⟩

/-- Only three numerals in the accepted ranges are accepted. -/
theorem accepted_of_parseArgs {args : List Text} {p : Param × Param × Nat} (h : parseArgs args = some p) :
    ∃ a b c K M n, args = [a, b, c] ∧ numeral? a = some K ∧ numeral? b = some M ∧ numeral? c = some n ∧
      K ≤ 255 ∧ M ≤ 255 ∧ n ≤ 2 ^ 32 := by
  unfold parseArgs at h
  split at h
  case h_2 => cases h
  case h_1 a b c =>
    split at h
    case h_2 => cases h
    case h_1 K M n ha hb hc =>
      split at h
      case isFalse => cases h
      case isTrue hle => exact ⟨a, b, c, K, M, n, rfl, ha, hb, hc, hle⟩

/-- Arguments that are not accepted print usage, and nothing else is done (R103 (a)). -/
theorem State.startCommand_of_refused {s : State} {args : List Text} (h : parseArgs args = none) :
    s.startCommand args = s.usage := by
  simp only [State.startCommand, h]

theorem State.startCommand_of_accepted {s : State} {args : List Text} {K M : Param}
    (h : parseArgs args = some (K, M, n)) :
    s.startCommand args = { s.beginBuild K M n with tool := some (Tool.start K M n) } := by
  simp only [State.startCommand, h]

end arguments

/-- With no tool running, a step takes the command line presented. -/
theorem step_of_command {s : State} {args : List Text} {rest : List Input} (ht : s.tool = none)
    (hin : s.input = .command args :: rest) :
    step s = .next (State.startCommand { s with input := rest } args) := by
  simp only [step, s.fetch_cons hin (s.waits_of_no_tool ht _)]

/-! ## The command-line tool, undisturbed (R91, R94, R103 (b)) -/

/-- What is presented first waits for every tool that runs the given build. -/
def State.HeadWaits (s : State) (K M : Param) (n : Nat) : Prop :=
  ∀ (t : Tool) (x : Input), t.k = K → t.m = M → t.maxValue = n → s.input.head? = some x →
    State.waits { s with tool := some t } x = true

theorem State.HeadWaits.step_eq_moveTool {s : State} {t : Tool} {K M : Param} {n : Nat} (h : s.HeadWaits K M n)
    (hk : t.k = K) (hm : t.m = M) (hn : t.maxValue = n) :
    step { s with tool := some t } = .next (State.moveTool { s with tool := some t }) :=
  step_of_head_waits fun x hx => h t x hk hm hn hx

/-- A tool for which the first input waits takes its samples one a step, prints its pairs at the end of its sweep and is
gone; nothing else changes. -/
theorem run_tool {s : State} {t : Tool} {m : Nat} (hwait : s.HeadWaits t.k t.m t.maxValue)
    (hm : t.i + m = t.maxValue) :
    Host.Core.run core (m + 1) { s with tool := some t } =
      .next { s.printPairs (Tool.sweep m t).finish.emitted with tool := none } := by
  induction m generalizing t with
  | zero =>
    rw [run_succ (hwait.step_eq_moveTool rfl rfl rfl), State.moveTool_of_eq rfl hm]
    rfl
  | succ m ih =>
    rw [run_succ (hwait.step_eq_moveTool rfl rfl rfl), State.moveTool_of_lt (t := t) rfl (by omega)]
    exact ih (t := t.sample) (by simpa using hwait) (by rw [Tool.sample_i, Tool.sample_maxValue]; omega)

/-- A call of the tool waits for a running one, and a LUTRD where the parameters are those of the build that runs
(R163). -/
theorem State.headWaits_of_input {s : State} {K M : Param} {n : Nat}
    (h : ∀ x, s.input.head? = some x → (∃ args, x = .command args) ∨ (∃ w, x = .word (.argv w)) ∨
      ((s.lutK = K ∧ s.lutM = M ∧ s.lutMaxValue = n) ∧
        ∃ w K' M' c', x = .word (.req w) ∧ decode (.req w) = .instr (.lutrd K' M' c'))) :
    s.HeadWaits K M n := by
  intro t x hk hm hn hx
  obtain ⟨args, rfl⟩ | ⟨w, rfl⟩ | ⟨⟨hK, hM, hN⟩, w, K', M', c', rfl, hd⟩ := h x hx
  · exact State.waits_command _ rfl args
  · exact State.waits_argv rfl w
  · exact State.waits_lutrd rfl hd ⟨hk.trans hK.symm, hm.trans hM.symm, hn.trans hN.symm⟩

/-! ## The obligations -/

/-- Settles O44: the parameters are compared before the entry is read. -/
theorem lutrdChecksThePair : Obligations.LutrdChecksThePair := by
  intro K M c s h
  exact exec_lutrd_of_fail s (s.lookup_of_mismatch h)

/-- Settles O45: with the table's own pair a lookup answers what the table lists. -/
theorem lutrdReadsTheEntry : Obligations.LutrdReadsTheEntry := by
  intro c s
  refine ⟨fun v hv => ?_, fun habsent => ?_⟩
  · exact exec_lutrd_of_ok s (s.lookup_own_of_some (s.lutRead_eq_present_iff.1 hv))
  · exact exec_lutrd_of_fail s (s.lookup_own_of_none (s.lutRead_absent_iff.1 habsent))

/-- Settles O47: the two cases of the begin of a build. -/
theorem buildlutInstallsTheFinishedTable : Obligations.BuildlutInstallsTheFinishedTable := by
  intro K M n s hn
  refine ⟨fun hb hr => ?_, fun hfixed => ?_⟩ <;> rw [exec_buildlut_of_le s hn]
  · rw [s.beginBuild_of_not_fixed K M _ (s.isFixed_eq_false.2 ⟨hb, hr⟩)]
    rfl
  · rw [s.beginBuild_of_fixed K M _ (s.isFixed_iff.2 hfixed)]
    rfl

/-- Settles O48: a `maxValue` above 2^32 decodes to a rejection or is refused by BUILDLUT itself, and a command line is
accepted only with three numerals in their ranges. -/
theorem toolPrintsUsageOnBadArguments : Obligations.ToolPrintsUsageOnBadArguments := by
  refine ⟨fun K M n s hn => exec_buildlut_of_lt s hn, fun s w rest ht hin hbig => ?_, fun s args rest ht hin hbad => ?_⟩
  · have hd : decode (.argv w) = .rejected .maxValueRange :=
      decode_argv_of_not_le (by rw [ArgWord.maxValue_toNat]; exact hbig.not_ge)
    exact step_of_decode_rejected hin (s.waits_of_no_tool ht _) hd
  · have hnone : parseArgs args = none := by
      by_contra hne
      obtain ⟨p, hp⟩ := Option.ne_none_iff_exists'.1 hne
      exact hbad (accepted_of_parseArgs hp)
    rw [step_of_command ht hin, State.startCommand_of_refused hnone]
    rfl

/-- Settles O49: the first step begins the build and starts the tool, which then runs undisturbed to the end of its
sweep: where a LUTRD stands behind it, the build that has begun is the one the LUTRD waits for. -/
theorem commandLineToolRefinesBuildlut : Obligations.CommandLineToolRefinesBuildlut := by
  intro s a b c rest K M n ht hin ha hb hc hK hM hn hrest
  have hcount : (BitVec.ofNat 33 n).toNat = n := Nat.mod_eq_of_lt (by omega)
  rw [run_succ (step_of_command ht hin), State.startCommand_of_accepted (parseArgs_of_accepted ha hb hc hK hM hn),
    exec_buildlut_of_le _ (hcount.trans_le hn), hcount]
  generalize BitVec.ofNat 8 K = k
  generalize BitVec.ofNat 8 M = m
  have hwait : (State.beginBuild { s with input := rest } k m n).HeadWaits k m n :=
    State.headWaits_of_input fun x hx => by
      rw [State.beginBuild_input] at hx
      refine (hrest x hx).imp_right (Or.imp_right fun ⟨hbuilt, hresp, hlutrd⟩ => ⟨?_, hlutrd⟩)
      have hunfixed : State.isFixed { s with input := rest } = false := s.isFixed_eq_false.2 ⟨hbuilt, hresp⟩
      obtain ⟨-, hK', hM', hmax, -⟩ := State.beginBuild_parameters _ k m n hunfixed
      exact ⟨hK', hM', hmax⟩
  have htool : ((State.beginBuild { s with input := rest } k m n).printPairs (builtPairs k m n)).tool = none := by
    rw [State.printPairs_tool, State.beginBuild_tool]
    exact ht
  rw [run_tool (t := Tool.start k m n) hwait (Nat.zero_add n)]
  exact congrArg Host.Outcome.next (by rw [← htool]; rfl)

end Sys2Proof.Machine

/-! Proofs of the table statements, second part: the sweep. The open run is what the samples just swept say (R92, R93),
a table is the writes of the pairs emitted, in order (R97), and samples that fail, after the run is closed, add nothing.
All of it holds for valid and invalid parameters. -/

namespace Sys2Proof.Machine

/-! ## The open run (R91 to R93) -/

/-- `o` is the run that is open after the samples `0 .. n - 1`: their codewords from its first on are its own, it could
not start earlier, and none is open exactly at the start and after a failed sample. -/
def IsOpenRun (K M n : Nat) (o : Option OpenRun) : Prop :=
  (∀ r, o = some r → r.first < n ∧ (∀ j, r.first ≤ j → j < n → enc j K M = .ok r.code) ∧
    (r.first = 0 ∨ enc (r.first - 1) K M ≠ .ok r.code)) ∧
  (o = none ↔ n = 0 ∨ ∃ f, enc (n - 1) K M = .fail f)

section openRun
variable {K M n first : Nat} {c : Code}

theorem isOpenRun_zero : IsOpenRun K M 0 none := ⟨by simp, by simp⟩

/-- No run is open after a failed sample (R93). -/
theorem isOpenRun_of_fail (h : ∃ f, enc n K M = .fail f) : IsOpenRun K M (n + 1) none := ⟨by simp, by simpa using h⟩

/-- A sample with the codeword of the open run extends it (R92). -/
theorem IsOpenRun.extend (h : IsOpenRun K M n (some ⟨c, first⟩)) (hc : enc n K M = .ok c) :
    IsOpenRun K M (n + 1) (some ⟨c, first⟩) := by
  obtain ⟨hlt, hrun, hfirst⟩ := h.1 _ rfl
  refine ⟨?_, by simp [hc]⟩
  rintro _ ⟨⟩
  refine ⟨by omega, fun j hj hjn => ?_, hfirst⟩
  obtain hlast | rfl := Nat.lt_succ_iff_lt_or_eq.1 hjn
  · exact hrun j hj hlast
  · exact hc

/-- A sample with another codeword than the open run's, or with none open, opens its own (R92, R93). -/
theorem IsOpenRun.restart {o : Option OpenRun} (h : IsOpenRun K M n o) (hne : ∀ r, o = some r → r.code ≠ c)
    (hc : enc n K M = .ok c) : IsOpenRun K M (n + 1) (some ⟨c, n⟩) := by
  refine ⟨?_, by simp [hc]⟩
  rintro _ ⟨⟩
  refine ⟨Nat.lt_succ_self n, fun j hj hjn => ?_, ?_⟩
  · obtain rfl : j = n := Nat.le_antisymm (Nat.lt_succ_iff.1 hjn) hj
    exact hc
  · refine or_iff_not_imp_left.2 fun hn hprev => ?_
    cases o with
    | none =>
      obtain h0 | ⟨f, hf⟩ := h.2.1 rfl
      · exact hn h0
      · rw [hf] at hprev
        cases hprev
    | some r =>
      obtain ⟨hlt, hrun, -⟩ := h.1 r rfl
      have hlast := hrun (n - 1) (by omega) (by omega)
      exact hne r rfl (Result.ok.inj (hlast.symm.trans hprev))

end openRun

section sweep
variable (K M : Param) (N : Nat)

theorem sweep_isOpenRun (n : Nat) :
    IsOpenRun K.toNat M.toNat n (Tool.sweep n (Tool.start K M N)).openRun := by
  induction n with
  | zero => exact isOpenRun_zero
  | succ n ih =>
    have hi : (Tool.sweep n (Tool.start K M N)).i = n := by simp
    have hk : (Tool.sweep n (Tool.start K M N)).k = K := by simp
    have hm : (Tool.sweep n (Tool.start K M N)).m = M := by simp
    rw [Tool.sweep_succ, Tool.sample, hk, hm]
    obtain ⟨c, hc, ⟨first, hopen⟩, h⟩ | ⟨c, r, hc, hopen, hne, h⟩ | ⟨c, hc, hopen, h⟩ | ⟨r, hc, hopen, h⟩ |
      ⟨hc, hopen, h⟩ := (Tool.sweep n (Tool.start K M N)).sampleAs_cases (codeOf K.toNat M.toNat n)
      <;> rw [hi, h] <;> simp only [hi, hopen] at ih ⊢
    · exact ih.extend (codeOf_eq_some.1 hc)
    · exact ih.restart (by rintro _ ⟨⟩; exact hne) (codeOf_eq_some.1 hc)
    · exact ih.restart (by simp) (codeOf_eq_some.1 hc)
    · exact isOpenRun_of_fail (codeOf_eq_none.1 hc)
    · exact isOpenRun_of_fail (codeOf_eq_none.1 hc)

end sweep

/-! ## The table is the writes of the pairs emitted (R97) -/

/-- The table that holds the pairs of a list, the later ones written over the earlier. -/
def tableOf (pairs : List (Code × Sample)) : Memory :=
  pairs.foldl (fun table p => table.write p.1.toNat p.2) Memory.empty

theorem tableOf_append (pairs : List (Code × Sample)) (p : Code × Sample) :
    tableOf (pairs ++ [p]) = (tableOf pairs).write p.1.toNat p.2 := by
  simp [tableOf]

/-- Written in ascending codeword order, no pair is written over. -/
theorem read?_tableOf {pairs : List (Code × Sample)} (h : pairs.Pairwise fun p q => p.1.toNat < q.1.toNat) (c : Code)
    (v : Sample) : (tableOf pairs).read? c.toNat = some v ↔ (c, v) ∈ pairs := by
  induction pairs using List.reverseRecOn with
  | nil => simp [tableOf]
  | append_singleton ps p ih =>
    obtain ⟨hps, -, hlast⟩ := List.pairwise_append.1 h
    rw [tableOf_append, Memory.read?_write, List.mem_append, List.mem_singleton, ← ih hps, Prod.ext_iff]
    by_cases hc : c = p.1
    · have hnew : (c, v) ∉ ps := fun hmem => by
        have := hlast _ hmem p (List.mem_singleton_self p)
        rw [hc] at this
        exact lt_irrefl _ this
      rw [ih hps]
      simp [hc ▸ hnew, hc, eq_comm]
    · simp [hc, BitVec.toNat_inj]

namespace Tool

variable {t : Tool}

/-- The table being filled holds the pairs emitted so far. -/
def Fills (t : Tool) : Prop := t.table = tableOf t.emitted

theorem Fills.emit (h : t.Fills) (r : OpenRun) (last : Nat) : (t.emit r last).Fills := by
  rw [Fills, emit_table, emit_emitted, tableOf_append, h]

theorem Fills.close (h : t.Fills) (last : Nat) : (t.close last).Fills := by
  obtain ⟨-, hc⟩ | ⟨r, -, hc⟩ := t.close_cases last <;> rw [hc]
  · exact h
  · exact h.emit r last

theorem Fills.sampleAs (h : t.Fills) (code : Option Code) : (t.sampleAs code).Fills := by
  obtain ⟨c, -, -, hs⟩ | ⟨c, r, -, -, -, hs⟩ | ⟨c, -, -, hs⟩ | ⟨r, -, -, hs⟩ | ⟨-, -, hs⟩ := t.sampleAs_cases code <;>
    rw [hs]
  · exact h
  · exact h.emit r _
  · exact h
  · exact h.emit r _
  · exact h

theorem Fills.sweep (h : t.Fills) (n : Nat) : (Tool.sweep n t).Fills := by
  induction n with
  | zero => exact h
  | succ n ih =>
    rw [sweep_succ]
    exact ih.sampleAs _

end Tool

theorem builtTable_eq_tableOf (K M : Param) (n : Nat) : builtTable K M n = tableOf (builtPairs K M n) :=
  Tool.Fills.close (Tool.Fills.sweep (t := Tool.start K M n) rfl n) _

/-! ## Samples that add no pair -/

namespace Tool

variable (t : Tool)

theorem sweep_add (m n : Nat) : Tool.sweep (m + n) t = Tool.sweep n (Tool.sweep m t) := by
  induction n with
  | zero => rfl
  | succ n ih => rw [← Nat.add_assoc, sweep_succ, ih, sweep_succ]

theorem sample_of_ok {c : Code} (h : enc t.i t.k.toNat t.m.toNat = .ok c) : t.sample = t.sampleAs (some c) := by
  rw [Tool.sample, codeOf_eq_some.2 h]

theorem close_of_none (h : t.openRun = none) (last : Nat) : t.close last = t := by simp only [close, h]

theorem close_of_some {r : OpenRun} (h : t.openRun = some r) (last : Nat) :
    t.close last = { t.emit r last with openRun := none } := by simp only [close, h]

theorem close_openRun (last : Nat) : (t.close last).openRun = none := by
  obtain ⟨hnone, hc⟩ | ⟨r, -, hc⟩ := t.close_cases last <;> rw [hc]
  exact hnone

/-- A failed sample closes the open run (R93). -/
theorem sample_of_fail (h : ∃ f, enc t.i t.k.toNat t.m.toNat = .fail f) :
    t.sample.openRun = none ∧ t.sample.emitted = (t.close (t.i - 1)).emitted := by
  rw [Tool.sample, codeOf_eq_none.2 h]
  exact ⟨t.close_openRun _, rfl⟩

/-- With a run open, closing it emits its one pair. -/
theorem close_emitted {r : OpenRun} (h : t.openRun = some r) (last : Nat) :
    (t.close last).emitted = t.emitted ++ [(r.code, BitVec.ofNat 32 (midpoint r.first last))] := by
  rw [t.close_of_some h]
  rfl

/-- Failed samples at the end of a sweep emit what its end would: the pair of the open run, closed at the last sample
that encodes (R93, R94). -/
theorem close_sweep_of_fail {m : Nat}
    (h : ∀ j, t.i ≤ j → j < t.i + m → ∃ f, enc j t.k.toNat t.m.toNat = .fail f) :
    ((Tool.sweep m t).close (t.i + m - 1)).emitted = (t.close (t.i - 1)).emitted := by
  induction m with
  | zero => rfl
  | succ m ih =>
    obtain ⟨hnone, hemitted⟩ := sample_of_fail (Tool.sweep m t) (by simpa using h (t.i + m) (by omega) (by omega))
    rw [sweep_succ, close_of_none _ hnone, hemitted, sweep_i]
    exact ih fun j hj hjm => h j hj (by omega)

end Tool

/-- A build whose samples from `n` on all fail emits the pairs of the build of `n` samples. -/
theorem builtPairs_of_fail {K M : Param} {N n : Nat} (hn : n ≤ N)
    (h : ∀ j, n ≤ j → j < N → ∃ f, enc j K.toNat M.toNat = .fail f) :
    builtPairs K M N = ((Tool.sweep n (Tool.start K M N)).close (n - 1)).emitted := by
  obtain ⟨m, rfl⟩ := Nat.exists_eq_add_of_le hn
  have hclose := Tool.close_sweep_of_fail (t := Tool.sweep n (Tool.start K M (n + m))) (m := m) (by simpa using h)
  rw [builtPairs, buildRun, Tool.finish, Tool.sweep_maxValue, Tool.sweep_add]
  simpa using hclose

/-- Where no sample encodes, nothing is emitted (R99). -/
theorem builtPairs_eq_nil_of_fail {K M : Param} {N : Nat} (h : ∀ j < N, ∃ f, enc j K.toNat M.toNat = .fail f) :
    builtPairs K M N = [] := builtPairs_of_fail (Nat.zero_le N) fun j _ hj => h j hj

/-! ## The obligations -/

/-- Settles O50: by induction on the samples, along the cases of one. -/
theorem openRunIsTheRunOfTheLastSample : Obligations.OpenRunIsTheRunOfTheLastSample := by
  intro K M N n _ _ t
  obtain ⟨hrun, hnone⟩ : IsOpenRun K.toNat M.toNat n t.openRun := sweep_isOpenRun K M N n
  exact ⟨(Tool.sweep_i _ n).trans (Nat.zero_add n), hrun, hnone⟩

/-- Settles O53: no sample encodes, or there is none; and the table holds only what is emitted. -/
theorem emptyBuilds : Obligations.EmptyBuilds := by
  intro K M N h
  have hpairs : builtPairs K M N = [] := builtPairs_eq_nil_of_fail fun j hj => by
    obtain hinvalid | rfl := h
    · exact ⟨_, enc_of_not_valid hinvalid⟩
    · cases hj
  exact ⟨by rw [builtTable_eq_tableOf, hpairs]; rfl, hpairs⟩

end Sys2Proof.Machine

/-! Proofs of the table statements, third part: the buckets. The idea is one function, the first sample of a codeword
(`bucketStart`), for linear and exponential codewords alike. It rises strictly, a bucket ends where the next one starts,
and the overflow threshold is the start of the first codeword that needs more than its bits; so the codeword of a sample,
and the samples of a codeword, are comparisons with it. -/

namespace Sys2Proof.Machine

/-! ## Where a bucket starts (R62, R78) -/

section low
variable {c M : Nat}

/-- The first codeword of a field has the power of two as its first sample. -/
theorem low_two_pow_mul (M f : Nat) : low (2 ^ M * (f + 1)) M = 2 ^ (M + f) := by
  rw [low_eq_mul, exponent_eq_div_sub_one, Nat.mul_mod_right, Nat.mul_div_cancel_left _ (Nat.two_pow_pos M),
    Nat.zero_add, Nat.add_sub_cancel, pow_add]

/-- A bucket starts where the one before it ends (R122). -/
theorem low_succ (h : 2 ^ M ≤ c) : low (c + 1) M = low c M + 2 ^ exponent c M := by
  have hpos : 0 < 2 ^ M := Nat.two_pow_pos M
  have hlt : c % 2 ^ M < 2 ^ M := Nat.mod_lt c hpos
  have hsplit : c / 2 ^ M * 2 ^ M + c % 2 ^ M = c := Nat.div_add_mod' c (2 ^ M)
  obtain hsame | hnext := Nat.lt_or_ge (c % 2 ^ M + 1) (2 ^ M)
  · have hmod : (c + 1) % 2 ^ M = c % 2 ^ M + 1 := by
      rw [← Nat.mod_add_mod, Nat.mod_eq_of_lt hsame]
    have hdiv : (c + 1) / 2 ^ M = c / 2 ^ M := by
      rw [Nat.div_eq_iff hpos]
      omega
    rw [low_eq_mul, low_eq_mul, exponent_eq_div_sub_one, hmod, hdiv, ← exponent_eq_div_sub_one]
    ring
  · obtain ⟨f, hf⟩ : ∃ f, c / 2 ^ M = f + 1 :=
      Nat.exists_eq_add_of_le' (Nat.div_pos h hpos)
    have hc : c + 1 = 2 ^ M * (f + 1 + 1) := by
      rw [Nat.mul_comm, Nat.succ_mul, ← hf]
      omega
    have hm : c % 2 ^ M + 1 = 2 ^ M := Nat.le_antisymm hlt hnext
    rw [hc, low_two_pow_mul, low_eq_mul, exponent_eq_div_sub_one, hf, Nat.add_sub_cancel, ← Nat.succ_mul,
      Nat.succ_eq_add_one, Nat.add_right_comm, hm]
    ring

theorem high_add_one (c M : Nat) : high c M + 1 = low c M + 2 ^ exponent c M := by
  have := Nat.two_pow_pos (exponent c M)
  rw [high_eq_add]
  omega

end low

/-- The first sample of a codeword's bucket: of a linear codeword its only one, itself (R62, R78). -/
def bucketStart (M c : Nat) : Nat := if c < 2 ^ (M + 1) then c else low c M

section bucketStart
variable {M c d v : Nat}

theorem bucketStart_linear (h : c < 2 ^ (M + 1)) : bucketStart M c = c := if_pos h

theorem bucketStart_exponential (h : 2 ^ (M + 1) ≤ c) : bucketStart M c = low c M := if_neg h.not_gt

theorem bucketStart_two_pow_mul {f : Nat} (M : Nat) (hf : 1 ≤ f) : bucketStart M (2 ^ M * (f + 1)) = 2 ^ (M + f) := by
  have hexp : 2 ^ (M + 1) ≤ 2 ^ M * (f + 1) := by
    rw [pow_succ]
    exact Nat.mul_le_mul_left _ (by omega)
  rw [bucketStart_exponential hexp, low_two_pow_mul]

/-- A linear bucket holds one sample (R62). -/
theorem bucketStart_succ_linear (h : c < 2 ^ (M + 1)) : bucketStart M (c + 1) = c + 1 := by
  obtain hlin | hexp := Nat.lt_or_ge (c + 1) (2 ^ (M + 1))
  · exact bucketStart_linear hlin
  · obtain hc : c + 1 = 2 ^ M * (1 + 1) := by
      rw [← pow_succ]
      omega
    rw [hc, bucketStart_two_pow_mul M le_rfl, pow_succ]

/-- An exponential bucket ends where the next one starts (R122). -/
theorem bucketStart_succ_exponential (h : 2 ^ (M + 1) ≤ c) : bucketStart M (c + 1) = high c M + 1 := by
  have hM : 2 ^ M ≤ 2 ^ (M + 1) := Nat.pow_le_pow_right (by decide) (Nat.le_succ M)
  rw [bucketStart_exponential (by omega), high_add_one, low_succ (hM.trans h)]

theorem bucketStart_strictMono (M : Nat) : StrictMono (bucketStart M) := by
  refine strictMono_nat_of_lt_succ fun c => ?_
  obtain hlin | hexp := Nat.lt_or_ge c (2 ^ (M + 1))
  · rw [bucketStart_succ_linear hlin, bucketStart_linear hlin]
    exact Nat.lt_succ_self c
  · have := Nat.two_pow_pos (exponent c M)
    rw [bucketStart_succ_exponential hexp, bucketStart_exponential hexp, high_add_one]
    omega

theorem bucketStart_lt_iff : bucketStart M c < bucketStart M d ↔ c < d := (bucketStart_strictMono M).lt_iff_lt

/-- A sample is in one bucket only (R122). -/
theorem eq_of_mem_bucket (hc : bucketStart M c ≤ v) (hc' : v < bucketStart M (c + 1)) (hd : bucketStart M d ≤ v)
    (hd' : v < bucketStart M (d + 1)) : c = d := by
  have h₁ : c < d + 1 := bucketStart_lt_iff.1 (hc.trans_lt hd')
  have h₂ : d < c + 1 := bucketStart_lt_iff.1 (hd.trans_lt hc')
  omega

/-- The overflow threshold is the start of the first codeword with a field of more than K bits, and is no linear sample
(R70). -/
theorem overflowLimit_eq_bucketStart (K M : Nat) : overflowLimit K M = bucketStart M (2 ^ M * 2 ^ max K 1) := by
  have hK : 2 ^ max K 1 = max (2 ^ K - 1) 1 + 1 := by
    cases K with
    | zero => rfl
    | succ K =>
      have : 2 ^ (K + 1) = 2 * 2 ^ K := pow_succ' 2 K
      have := Nat.two_pow_pos K
      rw [max_eq_left (by omega), max_eq_left (by omega)]
      omega
  rw [hK, bucketStart_two_pow_mul M (le_max_right _ _), overflowLimit]
  congr 1
  omega

end bucketStart

/-! ## The codeword of a sample (R121) -/

section enc
variable {K M v p : Nat} {c : Code}

/-- The codeword of the leading 1 has the sample in its bucket (R66). -/
theorem mem_bucket_leadingCode (hlo : 2 ^ p ≤ v) (hhi : v < 2 ^ (p + 1)) (hM : M < p) :
    bucketStart M (leadingCode v p M) ≤ v ∧ v < bucketStart M (leadingCode v p M + 1) := by
  have hexp := le_leadingCode hlo hhi hM
  obtain ⟨hge, -⟩ := shifted_mem_of_leading_bit hlo hhi hM.le
  have hexponent : exponent (leadingCode v p M) M = p - M := by
    rw [exponent, field_leadingCode hlo hhi hM.le, Nat.add_sub_cancel]
  have hmantissa : leadingCode v p M % 2 ^ M + 2 ^ M = v / 2 ^ (p - M) := by
    rw [leadingCode, Nat.add_mul_mod_self_right, shifted_mod_of_leading_bit hlo hhi hM.le]
    omega
  rw [bucketStart_succ_exponential hexp, high_add_one, bucketStart_exponential hexp, low_eq_mul, hexponent, hmantissa]
  exact ⟨Nat.div_mul_le_self v _, Nat.lt_div_mul_add (Nat.two_pow_pos _)⟩

theorem mem_bucket_of_enc_ok (hv : v < 2 ^ 32) (hok : enc v K M = .ok c) :
    bucketStart M c.toNat ≤ v ∧ v < bucketStart M (c.toNat + 1) := by
  obtain ⟨-, ⟨hlin, hcode⟩ | ⟨p, hM, -, hlo, hhi, -, hcode⟩⟩ := enc_ok_cases hv hok <;> rw [hcode]
  · rw [bucketStart_linear hlin, bucketStart_succ_linear hlin]
    exact ⟨le_rfl, Nat.lt_succ_self v⟩
  · exact mem_bucket_leadingCode hlo hhi hM

/-- ENC answers the codeword whose bucket holds the sample, below the threshold (R70, R121). -/
theorem enc_eq_ok_iff (h : valid K M) (hv : v < 2 ^ 32) :
    enc v K M = .ok c ↔ v < overflowLimit K M ∧ bucketStart M c.toNat ≤ v ∧ v < bucketStart M (c.toNat + 1) := by
  refine ⟨fun hok => ⟨?_, mem_bucket_of_enc_ok hv hok⟩, fun ⟨hT, hge, hlt⟩ => ?_⟩
  · by_contra hT
    rw [enc_of_overflowLimit_le h hv (Nat.not_lt.1 hT)] at hok
    cases hok
  · obtain ⟨d, hd⟩ := exists_enc_ok_of_lt_overflowLimit h hv hT
    obtain ⟨hge', hlt'⟩ := mem_bucket_of_enc_ok hv hd
    rw [hd, BitVec.eq_of_toNat_eq (eq_of_mem_bucket hge hlt hge' hlt')]

/-- A codeword has a sample in a sweep exactly when the sweep, cut at the threshold, reaches its bucket. -/
theorem exists_enc_ok_iff (h : valid K M) {N : Nat} (hN : N ≤ 2 ^ 32) :
    (∃ i, i < N ∧ enc i K M = .ok c) ↔ bucketStart M c.toNat < min N (overflowLimit K M) := by
  constructor
  · rintro ⟨i, hi, hok⟩
    obtain ⟨hT, hge, -⟩ := (enc_eq_ok_iff h (hi.trans_le hN)).1 hok
    exact hge.trans_lt (lt_min hi hT)
  · intro hlt
    obtain ⟨hN', hT⟩ := lt_min_iff.1 hlt
    exact ⟨_, hN', (enc_eq_ok_iff h (hN'.trans_le hN)).2 ⟨hT, le_rfl, bucketStart_strictMono M (Nat.lt_succ_self _)⟩⟩

/-- A field of more than K bits puts the bucket at the threshold or above (R70). -/
theorem overflowLimit_le_low {c : Nat} (hexp : 2 ^ (M + 1) ≤ c) (hf : 2 ^ K - 1 < c / 2 ^ M) :
    overflowLimit K M ≤ low c M := by
  have he := one_le_exponent hexp
  refine le_trans ?_ (two_pow_le_low c M)
  rw [exponent_eq_div_sub_one] at he ⊢
  exact Nat.pow_le_pow_right (by decide) (by omega)

end enc

end Sys2Proof.Machine

/-! Proofs of the table statements, fourth part: the finished build. With valid parameters a sweep, cut at the overflow
threshold, emits one pair for each codeword whose bucket it reaches, in codeword order, with the midpoint of the bucket up
to the cut (`exists_builtPairs_eq`). The order, the number and the table in closed form are read off this list. -/

namespace Sys2Proof.Machine

/-! ## The pairs of a sweep (R92, R95) -/

/-- The pair of a codeword whose run is its whole bucket (R106). -/
def bucketPair (M c : Nat) : Code × Sample :=
  (BitVec.ofNat 8 c, BitVec.ofNat 32 (midpoint (bucketStart M c) (bucketStart M (c + 1) - 1)))

/-- Where the codeword changes, one bucket ends and the next one starts (R122). -/
theorem bucketStart_of_next {M n c d : Nat} (hd : bucketStart M d ≤ n) (hd' : n < bucketStart M (d + 1))
    (hc : bucketStart M c ≤ n + 1) (hc' : n + 1 < bucketStart M (c + 1)) (hne : d ≠ c) :
    c = d + 1 ∧ bucketStart M (d + 1) = n + 1 := by
  have hend : bucketStart M (d + 1) = n + 1 := by
    by_contra hlt
    exact hne (eq_of_mem_bucket (v := n + 1) (by omega) (by omega) hc hc')
  have hnext : n + 1 < bucketStart M (d + 1 + 1) := hend ▸ bucketStart_strictMono M (Nat.lt_succ_self _)
  exact ⟨eq_of_mem_bucket hc hc' hend.le hnext, hend⟩

/-- The open run starts where the bucket of its codeword does. -/
theorem IsOpenRun.first_eq_bucketStart {K M n first : Nat} {c : Code} (h : valid K M) (hn : n ≤ 2 ^ 32)
    (hopen : IsOpenRun K M n (some ⟨c, first⟩)) : first = bucketStart M c.toNat := by
  obtain ⟨hlt, hcodes, hstart⟩ : first < n ∧ (∀ j, first ≤ j → j < n → enc j K M = .ok c) ∧
    (first = 0 ∨ enc (first - 1) K M ≠ .ok c) := hopen.1 _ rfl
  obtain ⟨hT, hge, hend⟩ := (enc_eq_ok_iff h (hlt.trans_le hn)).1 (hcodes first le_rfl hlt)
  refine Nat.le_antisymm ?_ hge
  by_contra hbefore
  have hprev : enc (first - 1) K M = .ok c := (enc_eq_ok_iff h (by omega)).2 ⟨by omega, by omega, by omega⟩
  exact hstart.elim (by omega) fun hne => hne hprev

section sweep
variable {K M : Param} {n : Nat} {c : Code} (h : valid K.toNat M.toNat) (N : Nat) (hn : n < 2 ^ 32)
  (hc : enc n K.toNat M.toNat = .ok c)
include h hn hc

/-- The run open after a sample that encodes is that of its codeword, from the start of the bucket on (R92). -/
theorem sweep_openRun :
    (Tool.sweep (n + 1) (Tool.start K M N)).openRun = some ⟨c, bucketStart M.toNat c.toNat⟩ := by
  have hopen : IsOpenRun K.toNat M.toNat (n + 1) (Tool.sweep (n + 1) (Tool.start K M N)).openRun :=
    sweep_isOpenRun K M N (n + 1)
  cases hr : (Tool.sweep (n + 1) (Tool.start K M N)).openRun with
  | none =>
    obtain ⟨f, hf⟩ := (hopen.2.1 hr).resolve_left (Nat.succ_ne_zero n)
    rw [Nat.add_sub_cancel, hc] at hf
    cases hf
  | some r =>
    obtain ⟨d, first⟩ := r
    rw [hr] at hopen
    obtain ⟨hlt, hcodes, -⟩ := hopen.1 _ rfl
    obtain rfl : d = c := Result.ok.inj ((hcodes n (Nat.lt_succ_iff.1 hlt) (Nat.lt_succ_self n)).symm.trans hc)
    rw [hopen.first_eq_bucketStart h hn]

/-- By then every codeword below has been emitted with its whole bucket (R92, R95). -/
theorem sweep_emitted :
    (Tool.sweep (n + 1) (Tool.start K M N)).emitted = (List.range c.toNat).map (bucketPair M.toNat) := by
  induction n generalizing c with
  | zero =>
    obtain ⟨hge, -⟩ := mem_bucket_of_enc_ok hn hc
    have hc0 : c.toNat = 0 := Nat.le_zero.1 ((bucketStart_strictMono M.toNat).le_apply.trans hge)
    rw [hc0, Tool.sweep_succ, Tool.sample_of_ok (c := c) _ (by simpa using hc)]
    rfl
  | succ n ih =>
    obtain ⟨hT, hge, hend⟩ := (enc_eq_ok_iff h hn).1 hc
    have hn' : n < 2 ^ 32 := (Nat.lt_succ_self n).trans hn
    obtain ⟨d, hd⟩ := exists_enc_ok_of_lt_overflowLimit h hn' ((Nat.lt_succ_self n).trans hT)
    obtain ⟨hge', hend'⟩ := mem_bucket_of_enc_ok hn' hd
    rw [Tool.sweep_succ, Tool.sample_of_ok (c := c) _ (by simpa using hc), Tool.sampleAs, sweep_openRun h N hn' hd]
    by_cases hdc : d = c
    · simp only [hdc, if_true]
      exact ih hn' (hdc ▸ hd)
    · have hne : d.toNat ≠ c.toNat := fun heq => hdc (BitVec.eq_of_toNat_eq heq)
      obtain ⟨hnext, hstart⟩ := bucketStart_of_next hge' hend' hge hend hne
      simp only [hdc, if_false, Tool.emit_emitted, ih hn' hd, Tool.sweep_i, Tool.start_i, Nat.zero_add,
        Nat.add_sub_cancel, hnext, List.range_succ, List.map_append, List.map_singleton, bucketPair, hstart,
        BitVec.ofNat_toNat, BitVec.setWidth_eq]

/-- Closing the run emits its codeword with the samples up to there (R94). -/
theorem close_sweep_emitted :
    ((Tool.sweep (n + 1) (Tool.start K M N)).close n).emitted =
      (List.range c.toNat).map (bucketPair M.toNat) ++
        [(c, BitVec.ofNat 32 (midpoint (bucketStart M.toNat c.toNat) n))] := by
  rw [Tool.close_emitted _ (sweep_openRun h N hn hc), sweep_emitted h N hn hc]

end sweep

/-! ## The pairs of a build (R95, R96, R106) -/

/-- The pair of a codeword whose run is its bucket, cut below the sample `L` (R106). -/
def cutPair (M L c : Nat) : Code × Sample :=
  (BitVec.ofNat 8 c, BitVec.ofNat 32 (midpoint (bucketStart M c) (min L (bucketStart M (c + 1)) - 1)))

section build
variable {K M : Param} {N : Nat} (h : valid K.toNat M.toNat) (hN : N ≤ 2 ^ 32)
include h hN

/-- The pairs end with that of the last sample that encodes; before it stand the codewords below with their whole
buckets. -/
theorem builtPairs_eq_append {n : Nat} {c : Code} (hn : n + 1 = min N (overflowLimit K.toNat M.toNat))
    (hc : enc n K.toNat M.toNat = .ok c) :
    builtPairs K M N = (List.range c.toNat).map (bucketPair M.toNat) ++
      [(c, BitVec.ofNat 32 (midpoint (bucketStart M.toNat c.toNat) n))] := by
  have hfail : ∀ j, n + 1 ≤ j → j < N → ∃ f, enc j K.toNat M.toNat = .fail f := fun j hj hjN =>
    ⟨_, enc_of_overflowLimit_le h (hjN.trans_le hN) (by omega)⟩
  rw [builtPairs_of_fail (by omega) hfail]
  exact close_sweep_emitted h N (by omega) hc

/-- One pair for each codeword whose bucket starts below the cut, in codeword order, with its bucket up to the cut. -/
theorem exists_builtPairs_eq : ∃ B ≤ 256,
    (∀ c, bucketStart M.toNat c < min N (overflowLimit K.toNat M.toNat) ↔ c < B) ∧
    builtPairs K M N = (List.range B).map (cutPair M.toNat (min N (overflowLimit K.toNat M.toNat))) := by
  generalize hL : min N (overflowLimit K.toNat M.toNat) = L
  cases L with
  | zero =>
    have hfail : ∀ j < N, ∃ f, enc j K.toNat M.toNat = .fail f := fun j hj =>
      ⟨_, enc_of_overflowLimit_le h (hj.trans_le hN) (by omega)⟩
    exact ⟨0, Nat.zero_le _, by simp, builtPairs_eq_nil_of_fail hfail⟩
  | succ n =>
    have hn : n < 2 ^ 32 := by omega
    obtain ⟨c, hc⟩ := exists_enc_ok_of_lt_overflowLimit h hn (by omega)
    obtain ⟨hge, hend⟩ := mem_bucket_of_enc_ok hn hc
    have hlast : min (n + 1) (bucketStart M.toNat (c.toNat + 1)) = n + 1 := min_eq_left hend
    refine ⟨c.toNat + 1, c.isLt, fun d => ⟨fun hd => ?_, fun hd => ?_⟩, ?_⟩
    · exact bucketStart_lt_iff.1 ((Nat.lt_succ_iff.1 hd).trans_lt hend)
    · exact Nat.lt_succ_iff.2 (((bucketStart_strictMono _).monotone (Nat.lt_succ_iff.1 hd)).trans hge)
    · rw [builtPairs_eq_append h hN hL.symm hc, List.range_succ, List.map_append, List.map_singleton]
      congr 1
      · refine List.map_congr_left fun d hd => ?_
        have hwhole : bucketStart M.toNat (d + 1) ≤ n + 1 :=
          ((bucketStart_strictMono _).monotone (List.mem_range.1 hd)).trans (hge.trans (Nat.le_succ n))
        rw [bucketPair, cutPair, min_eq_right hwhole]
      · rw [cutPair, hlast, Nat.add_sub_cancel, BitVec.ofNat_toNat, BitVec.setWidth_eq]

end build

end Sys2Proof.Machine

/-! Proofs of the table statements, last part: what is read off the list of pairs, and the in-band builder, which sweeps
as the tool does up to the overflow threshold and then counts every failed sample to a run of 0xFF (R104). -/

namespace Sys2Proof.Machine

/-! ## The order of the pairs, and the table (R95, R97, R106) -/

theorem cutPair_fst_toNat {M L c : Nat} (h : c < 256) : (cutPair M L c).1.toNat = c := Nat.mod_eq_of_lt h

/-- The codewords ascend, for valid and invalid parameters (R105). -/
theorem builtPairs_pairwise {K M : Param} {N : Nat} (hN : N ≤ 2 ^ 32) :
    (builtPairs K M N).Pairwise fun p q => p.1.toNat < q.1.toNat := by
  by_cases h : valid K.toNat M.toNat
  · obtain ⟨B, hB, -, hpairs⟩ := exists_builtPairs_eq h hN
    rw [hpairs, List.pairwise_map]
    refine List.pairwise_lt_range.imp_of_mem fun {c d} hc hd hlt => ?_
    rw [List.mem_range] at hc hd
    rwa [cutPair_fst_toNat (hc.trans_le hB), cutPair_fst_toNat (hd.trans_le hB)]
  · rw [(emptyBuilds K M N (.inl h)).2]
    exact .nil

theorem read?_builtTable_iff {K M : Param} {N : Nat} (hN : N ≤ 2 ^ 32) (c : Code) (v : Sample) :
    (builtTable K M N).read? c.toNat = some v ↔ (c, v) ∈ builtPairs K M N := by
  rw [builtTable_eq_tableOf]
  exact read?_tableOf (builtPairs_pairwise hN) c v

section closed
variable {K M : Param} {N : Nat} (h : valid K.toNat M.toNat) (hN : N ≤ 2 ^ 32) (c : Code)
include h hN

/-- Present are the codewords whose bucket starts below the cut, each with the midpoint of its bucket up to the cut. -/
theorem read?_builtTable :
    (builtTable K M N).read? c.toNat =
      if bucketStart M.toNat c.toNat < min N (overflowLimit K.toNat M.toNat) then
        some (cutPair M.toNat (min N (overflowLimit K.toNat M.toNat)) c.toNat).2
      else none := by
  obtain ⟨B, hB, hreach, hpairs⟩ := exists_builtPairs_eq h hN
  have hmem (v : Sample) : (builtTable K M N).read? c.toNat = some v ↔
      c.toNat < B ∧ (cutPair M.toNat (min N (overflowLimit K.toNat M.toNat)) c.toNat).2 = v := by
    rw [read?_builtTable_iff hN, hpairs, List.mem_map]
    constructor
    · rintro ⟨d, hd, hpair⟩
      rw [List.mem_range] at hd
      have hdc : c.toNat = d := by rw [← cutPair_fst_toNat (hd.trans_le hB), hpair]
      rw [hdc, hpair]
      exact ⟨hd, rfl⟩
    · rintro ⟨hc, rfl⟩
      exact ⟨c.toNat, List.mem_range.2 hc, Prod.ext (BitVec.eq_of_toNat_eq (cutPair_fst_toNat c.isLt)) rfl⟩
  split
  case isTrue hlt => exact (hmem _).2 ⟨(hreach _).1 hlt, rfl⟩
  case isFalse hge => exact Option.eq_none_iff_forall_ne_some.2 fun v hv => hge ((hreach _).2 ((hmem v).1 hv).1)

end closed

section cut
variable {M L c : Nat}

/-- A bucket that ends before the cut gives DEC's value (R106). -/
theorem cutPair_snd_of_le (h : bucketStart M (c + 1) ≤ L) : (cutPair M L c).2 = BitVec.ofNat 32 (decodeNat c M) := by
  rw [cutPair, min_eq_right h]
  obtain hlin | hexp := Nat.lt_or_ge c (2 ^ (M + 1))
  · rw [bucketStart_linear hlin, bucketStart_succ_linear hlin, decodeNat_linear hlin, midpoint, Nat.add_sub_cancel,
      ← Nat.two_mul, Nat.mul_div_cancel_left _ (by decide)]
  · rw [bucketStart_exponential hexp, bucketStart_succ_exponential hexp, decodeNat_exponential hexp, Nat.add_sub_cancel]

/-- A cut bucket gives the midpoint of what is swept of it (R106). -/
theorem cutPair_snd_of_cut (hexp : 2 ^ (M + 1) ≤ c) (h : L ≤ high c M) :
    (cutPair M L c).2 = BitVec.ofNat 32 (midpoint (low c M) (L - 1)) := by
  rw [cutPair, bucketStart_exponential hexp, bucketStart_succ_exponential hexp, min_eq_left (Nat.le_succ_of_le h)]

/-- Only an exponential bucket can be cut: a linear one that is reached is whole. -/
theorem bucketStart_succ_le_of_whole (hreach : bucketStart M c < L) (h : c < 2 ^ (M + 1) ∨ high c M < L) :
    bucketStart M (c + 1) ≤ L := by
  obtain hlin | hexp := Nat.lt_or_ge c (2 ^ (M + 1))
  · rwa [bucketStart_succ_linear hlin, Nat.succ_le_iff, ← bucketStart_linear hlin]
  · rw [bucketStart_succ_exponential hexp]
    exact h.resolve_left hexp.not_gt

/-- A cut inside a bucket. -/
theorem mem_bucket_of_cut (hexp : 2 ^ (M + 1) ≤ c) (hlow : low c M < L) (hhigh : L ≤ high c M) :
    bucketStart M c < L ∧ L < bucketStart M (c + 1) := by
  rw [bucketStart_exponential hexp, bucketStart_succ_exponential hexp]
  exact ⟨hlow, Nat.lt_succ_of_le hhigh⟩

/-- The overflow threshold is the start of a bucket, so it cuts none. -/
theorem overflowLimit_not_cut (K : Nat) :
    ¬ (bucketStart M c < overflowLimit K M ∧ overflowLimit K M < bucketStart M (c + 1)) := by
  rw [overflowLimit_eq_bucketStart, bucketStart_lt_iff, bucketStart_lt_iff]
  omega

/-- The midpoint of a cut bucket is DEC's value or a little smaller (R107). -/
theorem midpoint_cut_bounds (hexp : 2 ^ (M + 1) ≤ c) (hlow : low c M < L) (hhigh : L ≤ high c M) :
    midpoint (low c M) (L - 1) ≤ decodeNat c M ∧
    decodeNat c M - midpoint (low c M) (L - 1) ≤ 2 ^ (exponent c M - 1) - 1 := by
  have hhalf := two_pow_exponent_eq hexp
  rw [high_eq_add] at hhigh
  rw [decodeNat_eq_add hexp, midpoint]
  omega

end cut

/-! ## The number of pairs (R108) -/

/-- In a complete sweep the first codeword not reached is the one after the last field that fits K bits and a sample. -/
theorem bucketStart_of_complete {K M : Nat} (hK : 2 ≤ K) (hM : M ≤ 7) :
    bucketStart M (2 ^ M * (min (2 ^ K - 1) (32 - M) + 1)) = min (overflowLimit K M) (2 ^ 32) := by
  have hfield : 2 ^ 2 ≤ 2 ^ K := Nat.pow_le_pow_right (by decide) hK
  rw [bucketStart_two_pow_mul M (by omega), overflowLimit, ← (pow_right_mono₀ one_le_two).map_min]
  congr 1
  omega

/-- A sweep that stops where the bucket of the codeword B starts has the pairs of the B codewords below. -/
theorem builtPairs_eq_of_bucketStart {K M : Param} {N B : Nat} (h : valid K.toNat M.toNat) (hN : N ≤ 2 ^ 32)
    (hB : bucketStart M.toNat B = min N (overflowLimit K.toNat M.toNat)) :
    builtPairs K M N = (List.range B).map (cutPair M.toNat (bucketStart M.toNat B)) := by
  obtain ⟨B', -, hreach, hpairs⟩ := exists_builtPairs_eq h hN
  simp only [← hB, bucketStart_lt_iff] at hreach hpairs
  have hle : B ≤ B' := Nat.le_of_not_lt fun hlt => lt_irrefl _ ((hreach B').1 hlt)
  have hge : B' ≤ B := Nat.le_of_not_lt fun hlt => lt_irrefl _ ((hreach B).2 hlt)
  obtain rfl := Nat.le_antisymm hle hge
  exact hpairs

/-! ## LUTRD against DEC (R107) -/

/-- A codeword whose bucket starts at a 32-bit sample is decoded (R80). -/
theorem decodeNat_lt_of_bucketStart_lt {M c : Nat} (hM : M ≤ 31) (h : bucketStart M c < 2 ^ 32) :
    decodeNat c M < 2 ^ 32 := by
  by_contra hbig
  obtain ⟨hexp, he⟩ := (two_pow_le_decodeNat_iff hM).1 (Nat.not_lt.1 hbig)
  exact (le_low_of_lt_exponent he).not_gt (bucketStart_exponential hexp ▸ h)

/-! ## The in-band builder (R104) -/

namespace Tool

theorem sweepInBand_succ (n : Nat) (t : Tool) : Tool.sweepInBand (n + 1) t = (Tool.sweepInBand n t).sampleInBand := by
  induction n generalizing t with
  | zero => rfl
  | succ n ih =>
    rw [sweepInBand, ih]
    rfl

theorem sweepInBand_add (m n : Nat) (t : Tool) :
    Tool.sweepInBand (m + n) t = Tool.sweepInBand n (Tool.sweepInBand m t) := by
  induction n with
  | zero => rfl
  | succ n ih => rw [← Nat.add_assoc, sweepInBand_succ, ih, sweepInBand_succ]

/-- Where every sample encodes, the two builders sweep alike. -/
theorem sweepInBand_eq_sweep (n : Nat) (t : Tool)
    (h : ∀ j < t.i + n, ∃ c, enc j t.k.toNat t.m.toNat = .ok c) : Tool.sweepInBand n t = Tool.sweep n t := by
  induction n with
  | zero => rfl
  | succ n ih =>
    obtain ⟨c, hc⟩ := h (t.i + n) (by omega)
    rw [sweepInBand_succ, ih fun j hj => h j (by omega), sweep_succ, sampleInBand,
      sample_of_ok (c := c) _ (by simpa using hc)]
    simp [hc, bareCode]

/-- Samples that show the byte of the open run only move the index (R92). -/
theorem sweepInBand_of_run {t : Tool} {r : OpenRun} (hr : t.openRun = some r) {n : Nat}
    (h : ∀ j, t.i ≤ j → j < t.i + n → bareCode (enc j t.k.toNat t.m.toNat) = r.code) :
    Tool.sweepInBand n t = { t with i := t.i + n } := by
  induction n with
  | zero => rfl
  | succ n ih =>
    have hcode := h (t.i + n) (by omega) (by omega)
    rw [sweepInBand_succ, ih fun j hj hjn => h j hj (by omega), sampleInBand, sampleAs]
    simp [hr, hcode, Nat.add_assoc]

/-- From an open run of 0xFF on, failed samples end in one pair for all of them (R104). -/
theorem finish_sweepInBand_of_fail {t : Tool} {first n : Nat} (hr : t.openRun = some ⟨0xFF, first⟩)
    (h : ∀ j, t.i ≤ j → j < t.i + n → ∃ f, enc j t.k.toNat t.m.toNat = .fail f) :
    (Tool.sweepInBand n t).emitted = t.emitted ∧
    (Tool.sweepInBand n t).finish.emitted =
      t.emitted ++ [(0xFF, BitVec.ofNat 32 (midpoint first (t.maxValue - 1)))] := by
  have hrun : Tool.sweepInBand n t = { t with i := t.i + n } := sweepInBand_of_run hr fun j hj hjn => by
    obtain ⟨f, hf⟩ := h j hj hjn
    rw [hf]
    rfl
  rw [hrun]
  exact ⟨rfl, close_emitted { t with i := t.i + n } hr _⟩

/-- The first failed sample closes the run of another codeword and opens one of 0xFF. -/
theorem sampleInBand_of_fail {t : Tool} (hr : ∀ r, t.openRun = some r → r.code ≠ 0xFF)
    (h : ∃ f, enc t.i t.k.toNat t.m.toNat = .fail f) :
    t.sampleInBand = { t.close (t.i - 1) with openRun := some ⟨0xFF, t.i⟩, i := t.i + 1 } := by
  obtain ⟨f, hf⟩ := h
  rw [sampleInBand, hf, bareCode, sampleAs, Config.sentinel]
  cases hopen : t.openRun with
  | none => rw [t.close_of_none hopen]
  | some r =>
    rw [t.close_of_some hopen]
    exact if_neg (hr r hopen)

/-- Where no run of 0xFF is open before them, failed samples are one pair more (R104). -/
theorem finish_sweepInBand_of_first_fail {t : Tool} (hr : ∀ r, t.openRun = some r → r.code ≠ 0xFF) {n : Nat}
    (h : ∀ j, t.i ≤ j → j < t.i + (n + 1) → ∃ f, enc j t.k.toNat t.m.toNat = .fail f) :
    (Tool.sweepInBand (n + 1) t).emitted = (t.close (t.i - 1)).emitted ∧
    (Tool.sweepInBand (n + 1) t).finish.emitted =
      (t.close (t.i - 1)).emitted ++ [(0xFF, BitVec.ofNat 32 (midpoint t.i (t.maxValue - 1)))] := by
  have hrest := finish_sweepInBand_of_fail (t := t.sampleInBand) (first := t.i) (n := n)
  rw [sampleInBand_of_fail hr (h t.i le_rfl (by omega))] at hrest
  rw [sweepInBand, sampleInBand_of_fail hr (h t.i le_rfl (by omega))]
  simpa using hrest rfl fun j hj hjn => by simpa using h j (by simp at hj; omega) (by simp at hjn; omega)

/-- The in-band end of a sweep that ends in failed samples: the open run goes on where it is one of 0xFF, and is
followed by one of 0xFF where it is not. -/
theorem finish_sweepInBand_of_open {t : Tool} {r : OpenRun} (hr : t.openRun = some r) {n : Nat}
    (h : ∀ j, t.i ≤ j → j < t.i + (n + 1) → ∃ f, enc j t.k.toNat t.m.toNat = .fail f) :
    (Tool.sweepInBand (n + 1) t).finish.emitted =
      if r.code = 0xFF then t.emitted ++ [(0xFF, BitVec.ofNat 32 (midpoint r.first (t.maxValue - 1)))]
      else (t.close (t.i - 1)).emitted ++ [(0xFF, BitVec.ofNat 32 (midpoint t.i (t.maxValue - 1)))] := by
  obtain ⟨code, first⟩ := r
  split
  case isTrue hcode => exact (finish_sweepInBand_of_fail (hcode ▸ hr) h).2
  case isFalse hcode =>
    have hne : ∀ r, t.openRun = some r → r.code ≠ 0xFF := by
      rw [hr]
      rintro _ ⟨⟩
      exact hcode
    exact (finish_sweepInBand_of_first_fail hne h).2

end Tool

/-- With eight bits in use, 0xFF has the last bucket below the threshold, also where it is a linear codeword. -/
theorem bucketStart_sentinel {M : Nat} (hM : M ≤ 7) : bucketStart M 255 = low 255 M := by
  interval_cases M <;> rfl

section inBand
variable {K M : Param} {N : Nat} (h : valid K.toNat M.toNat) (hN : N ≤ 2 ^ 32)
include h hN

/-- Up to the threshold the in-band builder emits the same pairs (R104). -/
theorem inBandPairs_of_le (hT : N ≤ overflowLimit K.toNat M.toNat) : inBandPairs true K M N = builtPairs K M N := by
  have hsweep : Tool.sweepInBand N (Tool.start K M N) = Tool.sweep N (Tool.start K M N) :=
    Tool.sweepInBand_eq_sweep N _ fun j hj => by
      rw [Tool.start_i, Nat.zero_add] at hj
      exact exists_enc_ok_of_lt_overflowLimit h (hj.trans_le hN) (hj.trans_le hT)
  exact congrArg (fun t : Tool => t.finish.emitted) hsweep

/-- Past it, it emits one pair more, or the last pair is that of a longer run (R104 (i)). -/
theorem inBandPairs_of_lt (hT : overflowLimit K.toNat M.toNat < N) :
    inBandPairs true K M N =
      if (builtPairs K M N).getLast?.map Prod.fst = some 0xFF then
        (builtPairs K M N).dropLast ++ [(0xFF, BitVec.ofNat 32 (midpoint (low 255 M.toNat) (N - 1)))]
      else builtPairs K M N ++ [(0xFF, BitVec.ofNat 32 (midpoint (overflowLimit K.toNat M.toNat) (N - 1)))] := by
  obtain ⟨n, hn⟩ : ∃ n, overflowLimit K.toNat M.toNat = n + 1 :=
    Nat.exists_eq_succ_of_ne_zero (Nat.two_pow_pos _).ne'
  obtain ⟨m, hm⟩ : ∃ m, N = n + 1 + (m + 1) := ⟨N - (n + 2), by omega⟩
  have hfail (j : Nat) (hj : n + 1 ≤ j) (hjN : j < N) : ∃ f, enc j K.toNat M.toNat = .fail f :=
    ⟨_, enc_of_overflowLimit_le h (hjN.trans_le hN) (hn.trans_le hj)⟩
  have hok (j : Nat) (hj : j < n + 1) : ∃ c, enc j K.toNat M.toNat = .ok c :=
    exists_enc_ok_of_lt_overflowLimit h (by omega) (hj.trans_eq hn.symm)
  have hsame : Tool.sweepInBand (n + 1) (Tool.start K M N) = Tool.sweep (n + 1) (Tool.start K M N) :=
    Tool.sweepInBand_eq_sweep _ _ (by simpa using hok)
  have hinBand : inBandPairs true K M N =
      (Tool.sweepInBand (m + 1) (Tool.sweep (n + 1) (Tool.start K M N))).finish.emitted := by
    rw [← hsame, ← Tool.sweepInBand_add, ← hm]
    rfl
  obtain ⟨c, hc⟩ := hok n (Nat.lt_succ_self n)
  have hopen := sweep_openRun h N (by omega) hc
  have hrest := Tool.finish_sweepInBand_of_open (n := m) hopen (by simpa [hm] using hfail)
  have hpairs := builtPairs_of_fail (by omega) hfail
  rw [Tool.sweep_i, Tool.start_i, Nat.zero_add, ← hpairs, Tool.sweep_maxValue, Tool.start_maxValue] at hrest
  rw [Tool.close_emitted _ hopen] at hpairs
  have hlast : (builtPairs K M N).getLast?.map Prod.fst = some c := by rw [hpairs]; simp
  rw [hinBand, hrest, hlast, hn]
  refine if_ctx_congr Option.some_inj.symm (fun hsentinel => ?_) fun _ => rfl
  obtain rfl : c = 0xFF := Option.some_inj.1 hsentinel
  rw [hpairs, List.dropLast_concat, ← bucketStart_sentinel h.2.1]
  rfl

end inBand

/-- With invalid parameters every sample fails, so the one run is of 0xFF (R104 (ii)). -/
theorem inBandPairs_of_not_valid {K M : Param} {N : Nat} (h : ¬ valid K.toNat M.toNat) (hN : 0 < N) :
    inBandPairs true K M N = [(0xFF, BitVec.ofNat 32 (midpoint 0 (N - 1)))] ∧ inBandPairs false K M N = [] := by
  obtain ⟨n, rfl⟩ := Nat.exists_eq_succ_of_ne_zero hN.ne'
  obtain ⟨hswept, hfinished⟩ := Tool.finish_sweepInBand_of_first_fail (t := Tool.start K M (n + 1)) (n := n)
    (fun r hr => by cases hr) fun j _ _ => ⟨_, enc_of_not_valid h⟩
  exact ⟨hfinished, hswept⟩

/-! ## The obligations -/

/-- Settles O51: the order is that of the list of pairs, and ascending codewords are distinct. -/
theorem pairsAscendByCodeword : Obligations.PairsAscendByCodeword := by
  intro K M N hN
  have hascend := builtPairs_pairwise (K := K) (M := M) hN
  have hnodup : ((builtPairs K M N).map fun p => p.1.toFin).Nodup :=
    List.pairwise_map.2 (hascend.imp fun hlt heq => hlt.ne (congrArg Fin.val heq))
  refine ⟨hascend, ?_⟩
  simpa using hnodup.length_le_card

/-- Settles O52: written in ascending order, no pair is written over. -/
theorem tableHoldsExactlyTheEmittedPairs : Obligations.TableHoldsExactlyTheEmittedPairs := by
  intro K M N c v hN
  exact read?_builtTable_iff hN c v

/-- Settles O54: a linear codeword's bucket is itself; an exponential one's is cut where the sweep stops inside it,
which the threshold, itself the start of a bucket, never does. -/
theorem tableClosedForm : Obligations.TableClosedForm := by
  intro K M N c h hN L lo hi
  have hL : min N (overflowLimit K.toNat M.toNat) = L := rfl
  refine ⟨?_, fun hexp hlo hhi => ?_⟩
  · rw [read?_builtTable h hN, hL]
    obtain hlin | hexp := Nat.lt_or_ge c.toNat (2 ^ (M.toNat + 1))
    · rw [if_pos hlin, bucketStart_linear hlin]
      refine if_ctx_congr Iff.rfl (fun hreach => ?_) fun _ => rfl
      rw [cutPair_snd_of_le ((bucketStart_succ_linear hlin).trans_le hreach), decodeNat_linear hlin]
    · rw [if_neg hexp.not_gt, bucketStart_exponential hexp]
      have hfield (hf : 2 ^ K.toNat - 1 < c.toNat / 2 ^ M.toNat) : L ≤ lo :=
        (min_le_right _ _).trans (overflowLimit_le_low hexp hf)
      obtain hreach | hbeyond := Nat.lt_or_ge lo L
      · rw [if_pos hreach, if_neg (not_or.2 ⟨fun hf => (hfield hf).not_gt hreach, hreach.not_ge⟩)]
        obtain hwhole | hcut := Nat.lt_or_ge hi L
        · rw [if_pos hwhole, cutPair_snd_of_le ((bucketStart_succ_exponential hexp).trans_le hwhole),
            decodeNat_exponential hexp, midpoint]
        · rw [if_neg hcut.not_gt, cutPair_snd_of_cut hexp hcut, midpoint, ← Nat.add_sub_assoc (Nat.one_le_of_lt hreach)]
      · rw [if_neg hbeyond.not_gt, if_pos (.inr hbeyond)]
  · obtain ⟨hstart, hend⟩ := mem_bucket_of_cut hexp hlo hhi
    refine ⟨?_, fun b hbexp hblo hbhi => ?_⟩
    · by_contra hT
      have hLT : L = overflowLimit K.toNat M.toNat := min_eq_right (Nat.not_lt.1 hT)
      rw [hLT] at hstart hend
      exact overflowLimit_not_cut K.toNat ⟨hstart, hend⟩
    · obtain ⟨hbstart, hbend⟩ := mem_bucket_of_cut hbexp hblo hbhi
      exact BitVec.eq_of_toNat_eq (eq_of_mem_bucket hbstart.le hbend hstart.le hend)

/-- Settles O57: the sweep stops where the bucket of the first codeword not reached starts. -/
theorem numberOfPairs : Obligations.NumberOfPairs := by
  refine ⟨fun K M N h hK hN hcomplete => ?_, ?_⟩
  · have hcut : bucketStart M.toNat (2 ^ M.toNat * (min (2 ^ K.toNat - 1) (32 - M.toNat) + 1)) =
        min N (overflowLimit K.toNat M.toNat) := by
      rw [bucketStart_of_complete hK h.2.1]
      omega
    have hfield : 2 ^ 2 ≤ 2 ^ K.toNat := Nat.pow_le_pow_right (by decide) hK
    have hcount : min (2 ^ K.toNat - 1) (32 - M.toNat) + 1 = 2 + min (2 ^ K.toNat - 2) (31 - M.toNat) := by omega
    rw [builtPairs_eq_of_bucketStart h hN hcut, List.length_map, List.length_range, hcount, Nat.mul_add, pow_succ]
  · have hpairs :=
      builtPairs_eq_of_bucketStart (K := 5) (M := 3) (N := 65536) (B := 112) (by decide) (by decide) (by decide)
    rw [hpairs, List.map_map]
    refine ⟨(List.map_congr_left fun c hc => ?_).trans (List.map_id _), rfl⟩
    exact cutPair_fst_toNat ((List.mem_range.1 hc).trans (by decide))

/-- Settles O58: up to the threshold the two builders sweep alike; from it on one closes its run and the other counts
the samples to a run of 0xFF. -/
theorem inBandBuilderWouldDiffer : Obligations.InBandBuilderWouldDiffer := by
  refine ⟨fun K M N h hN => ⟨inBandPairs_of_le h hN, inBandPairs_of_lt h hN⟩, fun K M N h hpos _ => ?_⟩
  have hinvalid := inBandPairs_of_not_valid h hpos
  rwa [midpoint, Nat.zero_add] at hinvalid

/-- Settles O59: BUILDLUT begins a build and prints; the finished table lists only what is emitted. -/
theorem buildlutChangesOnlyTheTable : Obligations.BuildlutChangesOnlyTheTable := by
  intro K M n s t ht
  obtain ⟨hn, rfl⟩ | ⟨hn, rfl⟩ := exec_buildlut_cases s ht
  · refine ⟨s.beginBuild_input K M _, s.beginBuild_responses K M _, s.beginBuild_draws K M _, s.beginBuild_tool K M _,
      ⟨_, congrArg (· ++ _) (s.beginBuild_printed K M _)⟩, fun _ hbuilt hresp => ?_, fun hother => ?_⟩
    · obtain ⟨hb, hK, hM, hmax, hlut⟩ := s.beginBuild_parameters K M n.toNat (s.isFixed_eq_false.2 ⟨hbuilt, hresp⟩)
      refine ⟨hb, hK, hM, hmax, fun c hc => (State.lutRead_absent_iff _).2 ?_⟩
      rw [State.printPairs_lut, hlut, Option.eq_none_iff_forall_ne_some]
      exact fun v hv => hc v ((read?_builtTable_iff hn c v).1 hv)
    · rw [s.beginBuild_of_fixed K M _ (s.isFixed_iff.2 (hother.resolve_left hn.not_gt))]
      exact ⟨rfl, rfl, rfl, rfl, rfl, fun c => rfl⟩
  · exact ⟨rfl, rfl, rfl, rfl, ⟨_, rfl⟩, fun hle => absurd hle hn.not_ge,
      fun _ => ⟨rfl, rfl, rfl, rfl, rfl, fun c => rfl⟩⟩

/-- Settles O46: the table lists exactly the codewords whose bucket the sweep reaches; DEC answers these, and a whole
bucket gives its value. -/
theorem lutrdAgreesWithDecOnCompleteRuns : Obligations.LutrdAgreesWithDecOnCompleteRuns := by
  intro c s hinv h K M L r
  have hN : s.lutMaxValue ≤ 2 ^ 32 := hinv.accepted
  have hL : L ≤ 2 ^ 32 := (min_le_left _ _).trans hN
  have hread : s.lut.read? c.toNat = if bucketStart M c.toNat < L then some (cutPair M L c.toNat).2 else none := by
    rw [hinv.finished]
    exact read?_builtTable h hN c
  have hok (v : Sample) : r = .ok v ↔ bucketStart M c.toNat < L ∧ (cutPair M L c.toNat).2 = v := by
    rw [s.lookup_own_eq_ok_iff, hread]
    simp
  have hreach : (∃ i, i < s.lutMaxValue ∧ enc i K M = .ok c) ↔ bucketStart M c.toNat < L := exists_enc_ok_iff h hN
  have hfits (hlt : bucketStart M c.toNat < L) : decodeNat c.toNat M < 2 ^ 32 :=
    decodeNat_lt_of_bucketStart_lt (le_31_of_valid h) (hlt.trans_le hL)
  have habsent (hne : ¬ bucketStart M c.toNat < L) : r = .fail .lutAbsent :=
    s.lookup_own_of_none (hread.trans (if_neg hne))
  refine ⟨?_, fun v hv => ?_, fun hne => habsent (hreach.not.1 hne), fun hrange => habsent fun hlt => ?_⟩
  · rw [hreach]
    simp [hok]
  · obtain ⟨hlt, rfl⟩ := (hok v).1 hv
    refine ⟨_, dec_of_decodeNat_lt h (hfits hlt), fun hwhole => ?_, fun hexp hcut => ?_⟩
    · exact cutPair_snd_of_le (bucketStart_succ_le_of_whole hlt hwhole)
    · have hlow : low c.toNat M < L := bucketStart_exponential hexp ▸ hlt
      obtain ⟨hle, hnear⟩ := midpoint_cut_bounds hexp hlow hcut
      rw [cutPair_snd_of_cut hexp hcut, BitVec.toNat_ofNat, BitVec.toNat_ofNat, Nat.mod_eq_of_lt (hfits hlt),
        Nat.mod_eq_of_lt (hle.trans_lt (hfits hlt))]
      exact ⟨by rw [midpoint, ← Nat.add_sub_assoc (Nat.one_le_of_lt hlow)], hle, hnear⟩
  · rw [dec_of_decodeNat_lt h (hfits hlt)] at hrange
    cases hrange

end Sys2Proof.Machine

/-! Proofs of the laws (spec/43_properties.md R117 to R127). The idea is that a codeword, linear or exponential, stands for
the samples from the start of its bucket up to that of the next one, and that the overflow threshold cuts no bucket: so a
bucket encodes as a whole or not at all (`enc_eq_ok_iff_mem_bucket`). The reconstruction is a sample of it like the others. -/

namespace Sys2Proof.Machine

/-! ## Buckets and the overflow threshold (R70, R121) -/

section threshold
variable {K M c v : Nat}

/-- The threshold has all samples of a bucket on the same side. -/
theorem lt_overflowLimit_iff_of_mem_bucket (K : Nat) (hge : bucketStart M c ≤ v) (hlt : v < bucketStart M (c + 1)) :
    v < overflowLimit K M ↔ bucketStart M c < overflowLimit K M := by
  have hnotCut := overflowLimit_not_cut (M := M) (c := c) K
  omega

/-- A reached bucket that ends within the sweep ends before the cut: only `maxValue` cuts. -/
theorem bucketStart_succ_le_min {N : Nat} (hreach : bucketStart M c < overflowLimit K M)
    (hend : bucketStart M (c + 1) ≤ N) : bucketStart M (c + 1) ≤ min N (overflowLimit K M) := by
  have hnotCut := overflowLimit_not_cut (M := M) (c := c) K
  omega

/-- An exponential bucket is below the threshold exactly when the field fits K bits. -/
theorem bucketStart_lt_overflowLimit_iff (hexp : 2 ^ (M + 1) ≤ c) :
    bucketStart M c < overflowLimit K M ↔ field c M ≤ 2 ^ K - 1 := by
  have he := one_le_exponent hexp
  rw [exponent] at he
  obtain ⟨hlow, hhigh⟩ : 2 ^ (M + exponent c M) ≤ low c M ∧ low c M < 2 ^ (M + 1 + exponent c M) := by
    refine ⟨two_pow_le_low c M, lt_of_le_of_lt ?_ (high_lt_two_pow c M)⟩
    rw [high_eq_add]
    exact Nat.le_add_right _ _
  rw [Nat.add_right_comm] at hhigh
  rw [bucketStart_exponential hexp, lt_overflowLimit_iff_of_leading_bit hlow hhigh (by rw [exponent]; omega), exponent]
  omega

end threshold

/-! ## A sample, its codeword and the reconstruction (R118, R121, R124) -/

section roundTrip
variable {K M v : Nat} {c : Code}

/-- ENC answers the codeword whose bucket holds the sample, if the bucket is below the threshold (R121). -/
theorem enc_eq_ok_iff_mem_bucket (h : valid K M) (hv : v < 2 ^ 32) :
    enc v K M = .ok c ↔
      bucketStart M c.toNat < overflowLimit K M ∧ bucketStart M c.toNat ≤ v ∧ v < bucketStart M (c.toNat + 1) := by
  rw [enc_eq_ok_iff h hv]
  exact and_congr_left fun ⟨hge, hlt⟩ => lt_overflowLimit_iff_of_mem_bucket K hge hlt

/-- The reconstruction is a sample of the bucket, also of a linear one (R76, R78). -/
theorem bucketStart_le_decodeNat_lt (M c : Nat) :
    bucketStart M c ≤ decodeNat c M ∧ decodeNat c M < bucketStart M (c + 1) := by
  obtain hlin | hexp := Nat.lt_or_ge c (2 ^ (M + 1))
  · rw [decodeNat_linear hlin, bucketStart_linear hlin, bucketStart_succ_linear hlin]
    exact ⟨le_rfl, Nat.lt_succ_self c⟩
  · obtain ⟨hlow, hhigh⟩ := decodeNat_mem_bucket hexp
    rw [bucketStart_exponential hexp, bucketStart_succ_exponential hexp]
    exact ⟨hlow, Nat.lt_succ_of_le hhigh⟩

/-- A codeword of a bucket that starts at a 32-bit sample decodes to its reconstruction (R118). -/
theorem exists_dec_eq_decodeNat {c : Nat} (h : valid K M) (hstart : bucketStart M c < 2 ^ 32) :
    ∃ d : Sample, dec c K M = .ok d ∧ d.toNat = decodeNat c M := by
  have hfits := decodeNat_lt_of_bucketStart_lt (le_31_of_valid h) hstart
  exact ⟨_, dec_of_decodeNat_lt h hfits, Nat.mod_eq_of_lt hfits⟩

section encoded
variable (hv : v < 2 ^ 32) (hok : enc v K M = .ok c)
include hv hok

theorem valid_of_enc_ok : valid K M := (enc_ok_cases hv hok).1

theorem exists_dec_of_enc_ok : ∃ d : Sample, dec c.toNat K M = .ok d ∧ d.toNat = decodeNat c.toNat M :=
  exists_dec_eq_decodeNat (valid_of_enc_ok hv hok) ((mem_bucket_of_enc_ok hv hok).1.trans_lt hv)

/-- A linear sample is its own codeword, and its own reconstruction (R118). -/
theorem decodeNat_of_enc_linear (hlin : v < 2 ^ (M + 1)) : decodeNat c.toNat M = v := by
  obtain ⟨-, hcode, -⟩ := encCodewordRange K M v c hv hok
  rw [hcode hlin, decodeNat_linear hlin]

/-- An exponential sample has an exponential codeword, in whose bucket it lies (R118). -/
theorem mem_low_high_of_enc_exponential (hexp : 2 ^ (M + 1) ≤ v) :
    2 ^ (M + 1) ≤ c.toNat ∧ low c.toNat M ≤ v ∧ v ≤ high c.toNat M := by
  obtain ⟨-, -, hrange, -⟩ := encCodewordRange K M v c hv hok
  obtain ⟨hc, -⟩ := hrange hexp
  have hmem := mem_bucket_of_enc_ok hv hok
  rw [bucketStart_exponential hc, bucketStart_succ_exponential hc, Nat.lt_succ_iff] at hmem
  exact ⟨hc, hmem⟩

end encoded

end roundTrip

/-- A sample and the reconstruction differ by at most half the bucket (R125). -/
theorem dist_decodeNat_le {M c v : Nat} (hexp : 2 ^ (M + 1) ≤ c) (hlow : low c M ≤ v) (hhigh : v ≤ high c M) :
    v - decodeNat c M ≤ 2 ^ (exponent c M - 1) ∧ decodeNat c M - v ≤ 2 ^ (exponent c M - 1) := by
  have hhalf := two_pow_exponent_eq hexp
  rw [high_eq_add] at hhigh
  rw [decodeNat_eq_add hexp]
  omega

/-- Half the bucket is at most `2^(-M-1)` of each of its samples (R125). -/
theorem half_bucket_mul_le {M c v : Nat} (hexp : 2 ^ (M + 1) ≤ c) (hlow : low c M ≤ v) :
    2 ^ (exponent c M - 1) * 2 ^ (M + 1) ≤ v :=
  calc 2 ^ (exponent c M - 1) * 2 ^ (M + 1) = 2 ^ (M + exponent c M) := by
        rw [pow_succ', ← Nat.mul_assoc, Nat.mul_comm _ 2, ← two_pow_exponent_eq hexp, ← pow_add, Nat.add_comm]
    _ ≤ low c M := two_pow_le_low c M
    _ ≤ v := hlow

/-! ## Order (R117) -/

section monotone
variable {K M v₁ v₂ : Nat} (hle : v₁ ≤ v₂) (hv : v₂ < 2 ^ 32)
include hle hv

theorem enc_ok_mono {c₁ c₂ : Code} (h₁ : enc v₁ K M = .ok c₁) (h₂ : enc v₂ K M = .ok c₂) : c₁.toNat ≤ c₂.toNat := by
  obtain ⟨hstart, -⟩ := mem_bucket_of_enc_ok (hle.trans_lt hv) h₁
  obtain ⟨-, hend⟩ := mem_bucket_of_enc_ok hv h₂
  exact Nat.lt_succ_iff.1 (bucketStart_lt_iff.1 (hstart.trans_lt (hle.trans_lt hend)))

/-- A failure is one of all larger samples: the parameters are invalid, or the threshold is passed. -/
theorem exists_enc_fail_of_le {f : Failure} (h₁ : enc v₁ K M = .fail f) : ∃ f', enc v₂ K M = .fail f' := by
  by_cases h : valid K M
  · refine ⟨_, enc_of_overflowLimit_le h hv ?_⟩
    by_contra hT
    obtain ⟨c, hc⟩ := exists_enc_ok_of_lt_overflowLimit h (hle.trans_lt hv) (hle.trans_lt (Nat.not_le.1 hT))
    rw [hc] at h₁
    cases h₁
  · exact ⟨_, enc_of_not_valid h⟩

/-- The sentinel is the largest codeword, so the order holds for the bare output too. -/
theorem bareCode_enc_mono : (bareCode (enc v₁ K M)).toNat ≤ (bareCode (enc v₂ K M)).toNat := by
  cases h₂ : enc v₂ K M with
  | fail f => exact Nat.le_of_lt_succ (bareCode (enc v₁ K M)).isLt
  | ok c₂ =>
    cases h₁ : enc v₁ K M with
    | ok c₁ => exact enc_ok_mono hle hv h₁ h₂
    | fail f =>
      obtain ⟨f', hf'⟩ := exists_enc_fail_of_le hle hv h₁
      rw [h₂] at hf'
      cases hf'

end monotone

/-! ## Where 0xFF is a codeword (R48, R127) -/

/-- The bucket of 0xFF is below the threshold exactly when K and M use all 8 bits, a K of 0 counting as 1 (R44, R70). -/
theorem bucketStart_sentinel_lt_overflowLimit_iff {K M : Nat} (h : valid K M) :
    bucketStart M 255 < overflowLimit K M ↔ max K 1 + M = 8 := by
  rw [overflowLimit_eq_bucketStart, bucketStart_lt_iff, ← pow_add, Nat.add_comm M]
  have hbits : max K 1 + M ≤ 8 := by omega
  generalize max K 1 + M = n at hbits ⊢
  interval_cases n <;> decide

/-- The samples of 0xFF, by M; for M ≤ 3 they are no 32-bit samples (R48). -/
theorem mem_bucket_sentinel_iff {M v : Nat} (hM : M ≤ 7) (hv : v < 2 ^ 32) :
    bucketStart M 255 ≤ v ∧ v < bucketStart M 256 ↔
      (M = 7 ∧ v = 255) ∨ (M = 6 ∧ 508 ≤ v ∧ v ≤ 511) ∨ (M = 5 ∧ 4032 ≤ v ∧ v ≤ 4095) ∨
      (M = 4 ∧ 507904 ≤ v ∧ v ≤ 524287) := by
  obtain hsmall | hlarge := Nat.lt_or_ge M 4
  · have hstart : 2 ^ 32 ≤ bucketStart M 255 := by
      interval_cases M <;> decide
    omega
  · have hends : (M, bucketStart M 255, bucketStart M 256) ∈
        [(4, 507904, 524288), (5, 4032, 4096), (6, 508, 512), (7, 255, 256)] := by
      interval_cases M <;> decide
    simp only [List.mem_cons, List.not_mem_nil, or_false, Prod.mk.injEq] at hends
    omega

/-! ## How many codewords are canonical (R123) -/

section canonical
variable {K M : Nat}

/-- The canonical codewords are those below the first one not reached by a sweep of all 32-bit samples. -/
theorem exists_enc_ok_iff_lt (h : valid K M) (c : Code) :
    (∃ v, v < 2 ^ 32 ∧ enc v K M = .ok c) ↔
      c.toNat < if 2 ≤ K then 2 ^ M * (min (2 ^ K - 1) (32 - M) + 1) else 2 ^ (M + 1) := by
  rw [exists_enc_ok_iff h le_rfl, min_comm]
  split
  case isTrue hK => rw [← bucketStart_of_complete hK h.2.1, bucketStart_lt_iff]
  case isFalse hK =>
    have hfield : max K 1 = 1 := by omega
    have hstart : bucketStart M (2 ^ (M + 1)) < 2 ^ 32 := by
      rw [pow_succ, bucketStart_two_pow_mul M le_rfl]
      exact Nat.pow_lt_pow_right (by decide) (by omega)
    rw [overflowLimit_eq_bucketStart, hfield, pow_one, ← pow_succ, min_eq_left hstart.le, bucketStart_lt_iff]

/-- A bound on the field, of two or more, is a bound on the codeword (R44). -/
theorem lt_mul_succ_iff_field {c n : Nat} (hn : 2 ≤ n) :
    c < 2 ^ M * (n + 1) ↔ c < 2 ^ (M + 1) ∨ 2 ≤ field c M ∧ field c M ≤ n := by
  have hlin := lt_linearLimit_iff c M
  rw [linearLimit_eq] at hlin
  rw [hlin, Nat.mul_comm, ← Nat.div_lt_iff_lt_mul (Nat.two_pow_pos M), ← field_eq_div]
  omega

end canonical

/-! ## The pairs of a build against DEC (R119) -/

/-- A reached bucket, whole or cut, gives DEC's value or a little less (R107, R119). -/
theorem cutPair_snd_near_decodeNat {M L c : Nat} (hreach : bucketStart M c < L) (hfits : decodeNat c M < 2 ^ 32) :
    (cutPair M L c).2.toNat ≤ decodeNat c M ∧
    decodeNat c M - (cutPair M L c).2.toNat ≤ 2 ^ (exponent c M - 1) - 1 := by
  obtain hcut | hwhole := Nat.lt_or_ge L (bucketStart M (c + 1))
  · have hexp : 2 ^ (M + 1) ≤ c := Nat.le_of_not_lt fun hlin =>
      hcut.not_ge (bucketStart_succ_le_of_whole hreach (.inl hlin))
    rw [bucketStart_exponential hexp] at hreach
    rw [bucketStart_succ_exponential hexp, Nat.lt_succ_iff] at hcut
    have hbounds := midpoint_cut_bounds hexp hreach hcut
    rwa [cutPair_snd_of_cut hexp hcut, BitVec.toNat_ofNat, Nat.mod_eq_of_lt (hbounds.1.trans_lt hfits)]
  · rw [cutPair_snd_of_le hwhole, BitVec.toNat_ofNat, Nat.mod_eq_of_lt hfits, Nat.sub_self]
    exact ⟨le_rfl, Nat.zero_le _⟩

/-- The j-th pair is that of the codeword j, whose bucket the sweep reaches; where another follows, its bucket is
whole. -/
theorem builtPairs_getElem?_eq_some {K M : Param} {N j : Nat} {c : Code} {v : Sample} (h : valid K.toNat M.toNat)
    (hN : N ≤ 2 ^ 32) (hj : (builtPairs K M N)[j]? = some (c, v)) :
    c.toNat = j ∧ v = (cutPair M.toNat (min N (overflowLimit K.toNat M.toNat)) j).2 ∧
    bucketStart M.toNat j < min N (overflowLimit K.toNat M.toNat) ∧
    (j + 1 < (builtPairs K M N).length →
      bucketStart M.toNat (j + 1) < min N (overflowLimit K.toNat M.toNat)) := by
  obtain ⟨B, hB, hreach, hpairs⟩ := exists_builtPairs_eq h hN
  rw [hpairs] at hj ⊢
  rw [List.getElem?_map, Option.map_eq_some_iff] at hj
  obtain ⟨i, hi, hpair⟩ := hj
  obtain ⟨hlt, rfl⟩ : j < B ∧ j = i := by simpa [List.getElem?_eq_some_iff] using hi
  have hcode := cutPair_fst_toNat (M := M.toNat) (L := min N (overflowLimit K.toNat M.toNat)) (hlt.trans_le hB)
  rw [hpair] at hcode ⊢
  exact ⟨hcode, rfl, (hreach j).2 hlt, fun hnext => (hreach _).2 (by simpa using hnext)⟩

/-! ## The obligations -/

/-- Settles O29: the starts of the buckets ascend with the codewords, and failures are all at the top. -/
theorem encIsMonotone : Obligations.EncIsMonotone := by
  intro K M v₁ v₂ _ hlt hv
  exact ⟨bareCode_enc_mono hlt.le hv, fun _ _ => enc_ok_mono hlt.le hv, fun _ => exists_enc_fail_of_le hlt.le hv⟩

/-- Settles O30: ENC reads an exponential sample only through its leading 1 and its shifted value. -/
theorem encDropsTheLowerBits : Obligations.EncDropsTheLowerBits := by
  intro K M v₁ v₂ p h hM hp hlo₁ hhi₁ hlo₂ hhi₂ hshifted
  have h32 : 2 ^ (p + 1) ≤ 2 ^ 32 := Nat.pow_le_pow_right (by decide) hp
  rw [enc_of_leading_bit h hlo₁ hhi₁ hM (hhi₁.trans_le h32), enc_of_leading_bit h hlo₂ hhi₂ hM (hhi₂.trans_le h32),
    leadingCode, hshifted, ← leadingCode]

/-- Settles O31: 0xFF needs all 8 bits, and its bucket is then known for each M. -/
theorem sentinelIsAlsoACodeword : Obligations.SentinelIsAlsoACodeword := by
  intro K M v hv
  by_cases h : valid K M
  · have hok : enc v K M = .ok 0xFF ↔
        bucketStart M 255 < overflowLimit K M ∧ bucketStart M 255 ≤ v ∧ v < bucketStart M 256 :=
      enc_eq_ok_iff_mem_bucket h hv
    rw [hok, bucketStart_sentinel_lt_overflowLimit_iff h, mem_bucket_sentinel_iff h.2.1 hv]
    omega
  · rw [enc_of_not_valid h]
    exact iff_of_false nofun (by omega)

/-- Settles O38: the codeword is exponential, so its bucket is given by `low` and `high` and the threshold by its
field. -/
theorem bucketCharacterisesCodeword : Obligations.BucketCharacterisesCodeword := by
  intro K M v c h hv hexp
  rw [enc_eq_ok_iff_mem_bucket h hv, bucketStart_lt_overflowLimit_iff hexp, bucketStart_exponential hexp,
    bucketStart_succ_exponential hexp, Nat.lt_succ_iff, and_comm, and_assoc]

/-- Settles O39: the answer is the reconstruction, which lies in the bucket of the codeword as the sample does. -/
theorem decOfEncIsInTheBucket : Obligations.DecOfEncIsInTheBucket := by
  intro K M v c hv hok
  obtain ⟨d, hdec, hd⟩ := exists_dec_of_enc_ok hv hok
  refine ⟨d, hdec, fun hlin => hd.trans (decodeNat_of_enc_linear hv hok hlin), fun hexp => ?_⟩
  obtain ⟨hc, hmem⟩ := mem_low_high_of_enc_exponential hv hok hexp
  obtain ⟨hlow, hhigh⟩ := decodeNat_mem_bucket hc
  exact ⟨hd ▸ hlow, hd ▸ hhigh, hmem⟩

/-- Settles O40: the start of the first field of two, and the size of a bucket put after its start. -/
theorem bucketsTileTheSamples : Obligations.BucketsTileTheSamples := by
  intro M
  refine ⟨low_two_pow_mul M 1, fun c hexp => ⟨?_, high_add_one c M⟩⟩
  rw [high_add_one, low_succ ((Nat.pow_le_pow_right (by decide) (Nat.le_succ M)).trans hexp)]

/-- Settles O41: the canonical codewords are an initial segment, whose end is a bound on the field. -/
theorem canonicalCodewords : Obligations.CanonicalCodewords := by
  intro K M c h
  refine ⟨?_, exists_enc_ok_iff_lt h c⟩
  rw [exists_enc_ok_iff_lt h c]
  split
  case isTrue hK =>
    have hfield : 2 ^ 2 ≤ 2 ^ K := Nat.pow_le_pow_right (by decide) hK
    rw [lt_mul_succ_iff_field (by omega)]
    simp only [hK, true_and]
  case isFalse hK => simp only [hK, false_and, or_false]

/-- Settles O42: the answer is the reconstruction, which lies in the bucket of the codeword. -/
theorem reconstructionEncodesBack : Obligations.ReconstructionEncodesBack := by
  intro K M v c hv hok
  have h := valid_of_enc_ok hv hok
  obtain ⟨d, hdec, hd⟩ := exists_dec_of_enc_ok hv hok
  obtain ⟨hreach, -⟩ := (enc_eq_ok_iff_mem_bucket h hv).1 hok
  exact ⟨d, hdec, (enc_eq_ok_iff_mem_bucket h d.isLt).2 ⟨hreach, hd ▸ bucketStart_le_decodeNat_lt M c.toNat⟩⟩

/-- Settles O43: both bounds are those of half the bucket. -/
theorem reconstructionErrorBound : Obligations.ReconstructionErrorBound := by
  intro K M v c d hv hok hdec
  obtain ⟨d', hdec', hd⟩ := exists_dec_of_enc_ok hv hok
  obtain rfl : d' = d := Result.ok.inj (hdec'.symm.trans hdec)
  refine ⟨fun hlin => hd.trans (decodeNat_of_enc_linear hv hok hlin), fun hexp => ?_⟩
  obtain ⟨hc, hlow, hhigh⟩ := mem_low_high_of_enc_exponential hv hok hexp
  obtain ⟨habove, hbelow⟩ := dist_decodeNat_le hc hlow hhigh
  have hhalf := half_bucket_mul_le hc hlow
  rw [hd]
  exact ⟨Nat.sub_le_iff_le_add'.1 habove, Nat.sub_le_iff_le_add'.1 hbelow,
    (Nat.mul_le_mul_right _ habove).trans hhalf, (Nat.mul_le_mul_right _ hbelow).trans hhalf⟩

/-- Settles O55: a pair is that of its bucket up to the cut, and a bucket that ends before the cut gives DEC's value. -/
theorem pairsAgreeWithDecWithinTolerance : Obligations.PairsAgreeWithDecWithinTolerance := by
  intro K M N j c v h hN hj
  obtain ⟨rfl, rfl, hreach, hnext⟩ := builtPairs_getElem?_eq_some h hN hj
  obtain ⟨hreachN, hreachT⟩ := lt_min_iff.1 hreach
  have hstart : bucketStart M.toNat c.toNat < 2 ^ 32 := hreachN.trans_le hN
  obtain ⟨d, hdec, hd⟩ := exists_dec_eq_decodeNat h hstart
  have hfits : decodeNat c.toNat M.toNat < 2 ^ 32 := hd ▸ d.isLt
  have hwhole (hend : bucketStart M.toNat (c.toNat + 1) ≤ min N (overflowLimit K.toNat M.toNat)) :
      (cutPair M.toNat (min N (overflowLimit K.toNat M.toNat)) c.toNat).2 = d := by
    rw [cutPair_snd_of_le hend, ← hd, BitVec.ofNat_toNat, BitVec.setWidth_eq]
  obtain ⟨hle, hnear⟩ := cutPair_snd_near_decodeNat hreach hfits
  rw [← hd] at hle hnear
  exact ⟨d, hdec, hle, fun hlast => hwhole (hnext hlast).le,
    fun hends => hwhole (bucketStart_succ_le_min hreachT (bucketStart_succ_le_of_whole hreachN hends)), fun _ => hnear⟩

end Sys2Proof.Machine

/-! Proofs of the exception statements (spec/60_exceptions.md R140, R141, R146, R147): nothing stops the machine, and every
request word has one answer, whose status is that of the first failing condition. The idea is to say once, for each function
that can fail, which of its failures comes first (`enc_status`, `dec_status`, `State.lookup_status`); the decoder's cases
then put a word under one of them. -/

namespace Sys2Proof.Machine

/-- No operation is a fault or a refusal, whatever its operands are (R140). -/
theorem exists_exec_eq_next (i : Instr) (s : State) : ∃ s', exec i s = .next s' := by
  cases i with
  | enc K M value => exact ⟨_, rfl⟩
  | dec K M c => exact ⟨_, rfl⟩
  | lutrd K M c => exact ⟨_, rfl⟩
  | buildlut K M n => exact ⟨_, rfl⟩

/-! ## The first failure of each operation (R147) -/

/-- ENC: the parameters are checked before the field (R61, R64). -/
theorem enc_status {K M v : Nat} (hv : v < 2 ^ 32) :
    (enc v K M).status =
      if ¬ valid K M then .failed .invalidParams
      else if 2 ^ (M + 1) ≤ v ∧ 2 ^ K - 1 < Nat.log2 v - M + 1 then .failed .expOverflow
      else .ok := by
  by_cases h : valid K M
  case neg => rw [if_pos h, enc_of_not_valid h]; rfl
  rw [if_neg (not_not_intro h)]
  obtain hlin | hexp := Nat.lt_or_ge v (2 ^ (M + 1))
  · obtain ⟨c, hc, -⟩ := enc_of_linear h hlin
    rw [if_neg fun hover => hover.1.not_gt hlin, hc]
    rfl
  · have hv0 : v ≠ 0 := ((Nat.two_pow_pos _).trans_le hexp).ne'
    have hM : M < v.log2 := (Nat.le_log2 hv0).2 hexp
    rw [enc_of_leading_bit h (Nat.log2_self_le hv0) Nat.lt_log2_self hM hv]
    by_cases hover : 2 ^ K - 1 < v.log2 - M + 1
    · rw [if_pos hover, if_pos ⟨hexp, hover⟩]
      rfl
    · rw [if_neg hover, if_neg fun hboth => hover hboth.2]
      rfl

/-- DEC: the parameters are checked before the range (R80, R81). -/
theorem dec_status (c K M : Nat) :
    (dec c K M).status =
      if ¬ valid K M then .failed .invalidParams
      else if 2 ^ (M + 1) ≤ c ∧ 31 - M < c / 2 ^ M - 1 then .failed .decRange
      else .ok := by
  rw [← exponent_eq_div_sub_one]
  obtain ⟨h, hd⟩ | ⟨h, hlin, hd⟩ | ⟨h, hexp, he, hd⟩ | ⟨h, -, he, hd⟩ := dec_cases c K M <;> rw [hd]
  · rw [if_pos h]
    rfl
  · rw [if_neg (not_not_intro h), if_neg fun hrange => hrange.1.not_gt hlin]
    rfl
  · rw [if_neg (not_not_intro h), if_pos ⟨hexp, he⟩]
    rfl
  · rw [if_neg (not_not_intro h), if_neg fun hrange => hrange.2.not_ge he]
    rfl

/-- LUTRD: the pair is compared before the entry is read (R101, R102). -/
theorem State.lookup_status (s : State) (K M : Param) (c : Code) :
    (s.lookup K M c).status =
      if K.toNat ≠ s.lutK.toNat ∨ M.toNat ≠ s.lutM.toNat then .failed .lutMismatch
      else if s.lut.read? c.toNat = none then .failed .lutAbsent
      else .ok := by
  simp only [ne_eq, BitVec.toNat_inj]
  obtain ⟨hne, h⟩ | ⟨rfl, rfl, hr, h⟩ | ⟨v, rfl, rfl, hr, h⟩ := s.lookup_cases K M c <;> rw [h]
  · rw [if_pos hne]
    rfl
  · simp [hr, Result.status]
  · simp [hr, Result.status]

theorem Answer.ofResult_status (r : Result Sample) : (Answer.ofResult r).status = r.status := by
  cases r with
  | ok v => rfl
  | fail why => rfl

/-! ## The operands of a request as numbers (R40, R46) -/

section operands
variable (w : ReqWord)

theorem ReqWord.k_toNat : (ReqWord.k w).toNat = w.toNat / 2 ^ 40 % 2 ^ 8 := by
  rw [ReqWord.k, extractLsb'_eq_ofNat_div, BitVec.toNat_ofNat]

theorem ReqWord.m_toNat : (ReqWord.m w).toNat = w.toNat / 2 ^ 32 % 2 ^ 8 := by
  rw [ReqWord.m, extractLsb'_eq_ofNat_div, BitVec.toNat_ofNat]

theorem ReqWord.data_toNat : (ReqWord.data w).toNat = w.toNat % 2 ^ 32 := by
  rw [ReqWord.data, BitVec.extractLsb'_toNat, Nat.shiftRight_zero]

variable {w}

/-- Without reserved bits the codeword is the whole data field. -/
theorem ReqWord.codeword_toNat (h : ReqWord.reserved w = 0) : (ReqWord.codeword w).toNat = w.toNat % 2 ^ 32 := by
  have hzero := (ReqWord.reserved_eq_zero_iff w).1 h
  rw [ReqWord.codeword, BitVec.extractLsb'_toNat, Nat.shiftRight_zero]
  omega

/-- A reserved bit is a data field of more than a codeword (R47). -/
theorem ReqWord.reserved_ne_zero_iff : ReqWord.reserved w ≠ 0 ↔ 256 ≤ w.toNat % 2 ^ 32 := by
  rw [ne_eq, ReqWord.reserved_eq_zero_iff]
  omega

end operands

/-! ## A request that need not wait is answered (R163) -/

/-- Only a LUTRD waits, and only for its instance's own build. -/
theorem State.waits_req_eq_false {s : State} {w : ReqWord}
    (h : ∀ u, s.tool = some u → w.toNat / 2 ^ 48 ≠ 2 ∨
      ¬ (u.k = s.lutK ∧ u.m = s.lutM ∧ u.maxValue = s.lutMaxValue)) :
    s.waits (.word (.req w)) = false := by
  refine State.waits_eq_false fun u hu => ?_
  obtain ⟨-, hd⟩ | ⟨-, -, hd⟩ | ⟨hop, -, hd⟩ | ⟨-, -, hd⟩ | ⟨-, hd⟩ := decode_req_cases w
  · exact s.waits_instr hu hd
  · exact s.waits_instr hu hd
  · exact (s.waits_instr hu hd).trans (decide_eq_false ((h u hu).resolve_left (not_not_intro hop)))
  · exact s.waits_rejected hu hd
  · exact s.waits_rejected hu hd

/-- Also while the tool runs, a word that need not wait is given its answer. -/
theorem step_of_answerTo_of_not_waits {s : State} {w : InstrWord} {rest : List Input} {a : Answer}
    (hin : s.input = .word w :: rest) (hw : s.waits (.word w) = false) (h : s.answerTo (decode w) = some a) :
    step s = .next (State.answer { s with input := rest } a) := by
  cases hd : decode w with
  | instr i =>
    rw [step_of_decode_instr hin hw hd]
    exact exec_of_answerTo (s := { s with input := rest }) (hd ▸ h)
  | rejected why =>
    rw [step_of_decode_rejected hin hw hd]
    exact congrArg _ (reject_of_answerTo (s := { s with input := rest }) (hd ▸ h))

/-! ## The obligations -/

/-- Settles O14: of the cases of a step only one runs an operation, and no operation stops. -/
theorem everyStepGoesOn : Obligations.EveryStepGoesOn := by
  refine ⟨fun s => ?_, exists_exec_eq_next⟩
  obtain ⟨-, h⟩ | ⟨args, rest, -, -, h⟩ | ⟨rest, -, h⟩ | ⟨w, i, rest, -, -, -, h⟩ | ⟨w, why, rest, -, -, -, h⟩ :=
    step_cases s
  · exact ⟨_, h⟩
  · exact ⟨_, h⟩
  · exact ⟨_, h⟩
  · rw [h]
    exact exists_exec_eq_next i _
  · exact ⟨_, h⟩

/-- Settles O23: the word is answered, and the case of the decoder it falls under says whose failures come first. -/
theorem oneStatusByPriority : Obligations.OneStatusByPriority := by
  intro s w rest hown hin
  obtain ⟨a, ha⟩ := exists_answerTo_req s w
  have hstep := step_of_answerTo_of_not_waits hin (State.waits_req_eq_false hown) ha
  refine ⟨_, a.response s.draws, hstep, State.answer_responses _ a, ?_⟩
  intro op K M data
  have hK : (ReqWord.k w).toNat = K := ReqWord.k_toNat w
  have hM : (ReqWord.m w).toNat = M := ReqWord.m_toNat w
  rw [Answer.response_status, ← hK, ← hM]
  obtain ⟨hop, hd⟩ | ⟨hop, hr, hd⟩ | ⟨hop, hr, hd⟩ | ⟨hop, hr, hd⟩ | ⟨hop, hd⟩ := decode_req_cases w <;>
    rw [hd] at ha <;> cases ha
  · have hdata : (ReqWord.data w).toNat = data := ReqWord.data_toNat w
    rw [if_neg (by omega), if_pos hop, ← hdata]
    exact enc_status (ReqWord.data w).isLt
  · have hdata : (ReqWord.codeword w).toNat = data := ReqWord.codeword_toNat hr
    rw [if_neg (by omega), if_neg (by omega), if_pos hop, Answer.ofResult_status, ← hdata]
    exact dec_status _ _ _
  · have hdata : (ReqWord.codeword w).toNat = data := ReqWord.codeword_toNat hr
    rw [if_neg (by omega), if_neg (by omega), if_neg (by omega), Answer.ofResult_status, ← hdata]
    exact s.lookup_status _ _ _
  · have hdata : 256 ≤ data := ReqWord.reserved_ne_zero_iff.1 hr
    rw [if_pos (by omega)]
    rfl
  · rw [if_pos (.inl hop)]
    rfl

end Sys2Proof.Machine

/-! Proofs of the reset and hazard statements (spec/70_reset_and_hazards.md R160, R161, R168, R169). A reset is taken in every
state and hands it on. For the hazards the idea is that both sweeps R168 names stop where a bucket starts
(`exists_bucketStart_eq_of_two_pow`, `bucketStart_succ_exponential`), so that no bucket is cut, and that a range of samples
encodes as a whole exactly when it ends by the overflow threshold (`forall_enc_ok_iff`). -/

namespace Sys2Proof.Machine

/-! ## Reset (R160, R161) -/

/-- A reset never waits, and leaves the rest of the state to the next step. -/
theorem step_of_reset {s : State} {rest : List Input} (hin : s.input = .reset :: rest) :
    step s = .next { s with input := rest } := by
  simp only [step, s.fetch_cons hin s.waits_reset, State.afterReset]

/-- The bound on LUT_MAXVALUE is that of its type (R15). -/
theorem State.reset_lutMaxValue_le : State.reset.lutMaxValue ≤ Config.maxSweep :=
  Nat.lt_succ_iff.1 Config.lutMaxValue.isLt

theorem State.reset_lut : State.reset.lut = builtTable State.reset.lutK State.reset.lutM State.reset.lutMaxValue := rfl

theorem State.reset_tool : State.reset.tool = none := rfl

/-! ## Which ranges of samples encode (R169) -/

/-- All samples below N encode exactly when N is at most the overflow threshold (R70). -/
theorem forall_enc_ok_iff {K M N : Nat} (h : valid K M) (hN : N ≤ 2 ^ 32) :
    (∀ v, v < N → ∃ c, enc v K M = .ok c) ↔ N ≤ overflowLimit K M := by
  constructor
  · intro hall
    by_contra hT
    have hlt : overflowLimit K M < N := Nat.not_le.1 hT
    obtain ⟨c, hc⟩ := hall _ hlt
    rw [enc_of_overflowLimit_le h (hlt.trans_le hN) le_rfl] at hc
    cases hc
  · intro hT v hv
    exact exists_enc_ok_of_lt_overflowLimit h (hv.trans_le hN) (hv.trans_le hT)

/-- Beyond the linear region a power of two is at most the threshold exactly when K bits hold its field (R70). -/
theorem two_pow_le_overflowLimit_iff {K M n : Nat} (hn : M + 1 < n) :
    2 ^ n ≤ overflowLimit K M ↔ n ≤ 2 ^ K - 1 + M := by
  rw [overflowLimit, Nat.pow_le_pow_iff_right (by decide)]
  omega

/-! ## Sweeps that cut no bucket (R107, R168) -/

/-- A power of two from `2^(M+1)` on is the start of a bucket (R78). -/
theorem exists_bucketStart_eq_of_two_pow {M n : Nat} (hn : M + 1 ≤ n) : ∃ B, bucketStart M B = 2 ^ n := by
  obtain ⟨f, rfl⟩ : ∃ f, n = M + f := ⟨n - M, by omega⟩
  exact ⟨_, bucketStart_two_pow_mul M (by omega)⟩

section build
variable {K M : Param} {N : Nat} {c : Code} {v : Sample} (h : valid K.toNat M.toNat) (hN : N ≤ 2 ^ 32)
  (hmem : (c, v) ∈ builtPairs K M N)
include h hN hmem

/-- The bucket of an emitted codeword starts within the sweep. -/
theorem bucketStart_lt_of_mem_builtPairs : bucketStart M.toNat c.toNat < N := by
  obtain ⟨j, hj⟩ := List.mem_iff_getElem?.1 hmem
  obtain ⟨rfl, -, hreach, -⟩ := builtPairs_getElem?_eq_some h hN hj
  exact hreach.trans_le (min_le_left _ _)

/-- An emitted codeword whose bucket ends within the sweep has DEC's value (R107). -/
theorem dec_of_mem_builtPairs (hend : bucketStart M.toNat (c.toNat + 1) ≤ N) :
    dec c.toNat K.toNat M.toNat = .ok v := by
  obtain ⟨j, hj⟩ := List.mem_iff_getElem?.1 hmem
  obtain ⟨d, hdec, -, -, hwhole, -⟩ := pairsAgreeWithDecWithinTolerance K M N j c v h hN hj
  have hends : c.toNat < 2 ^ (M.toNat + 1) ∨ high c.toNat M.toNat < N := by
    refine (Nat.lt_or_ge _ _).imp_right fun hexp => ?_
    rwa [bucketStart_succ_exponential hexp] at hend
  rw [hdec, hwhole hends]

/-- Where the sweep stops at the start of a bucket, the emitted buckets end before it. -/
theorem dec_of_mem_builtPairs_of_bucketStart {B : Nat} (hB : bucketStart M.toNat B = N) :
    dec c.toNat K.toNat M.toNat = .ok v := by
  have hreach : c.toNat < B := bucketStart_lt_iff.1 (hB ▸ bucketStart_lt_of_mem_builtPairs h hN hmem)
  exact dec_of_mem_builtPairs h hN hmem (hB ▸ (bucketStart_strictMono M.toNat).monotone hreach)

end build

/-! ## The obligations -/

/-- Settles O17: the instance comes out of reset with its build finished and no tool running. -/
theorem resetMeetsInvariant : Obligations.ResetMeetsInvariant where
  accepted := State.reset_lutMaxValue_le
  finished := State.reset_lut
  canonical := builtTable_wf _ _ _
  running := fun t ht => absurd (State.reset_tool.symm.trans ht) (Option.some_ne_none t).symm
  settled := fun ht => absurd State.reset_tool ht

/-- Settles O18: the step that takes a reset, and the reset state field by field. -/
theorem resetLeavesTheTable : Obligations.ResetLeavesTheTable :=
  ⟨fun _ _ => step_of_reset, State.reset_lut, State.reset_lutMaxValue_le, State.reset_tool⟩

/-- Settles O32: the range ends by the threshold, which is a power of two. -/
theorem encCoversSamplesBelowPower : Obligations.EncCoversSamplesBelowPower := by
  intro K M n h hn hn32
  rw [forall_enc_ok_iff h (Nat.pow_le_pow_right (by decide) hn32), two_pow_le_overflowLimit_iff hn]

/-- Settles O56: either sweep stops at the start of a bucket. -/
theorem wholeBucketSweepsAgreeWithDec : Obligations.WholeBucketSweepsAgreeWithDec := by
  intro K M N c v h hN hwhole hmem
  obtain ⟨n, hn, rfl⟩ | ⟨b, hexp, rfl⟩ := hwhole
  · obtain ⟨B, hB⟩ := exists_bucketStart_eq_of_two_pow hn
    exact dec_of_mem_builtPairs_of_bucketStart h hN hmem hB
  · exact dec_of_mem_builtPairs_of_bucketStart h hN hmem (bucketStart_succ_exponential hexp)

end Sys2Proof.Machine
